-- ==== Sys2Proof/Word.lean ====
section
/-! DEFINITION. Words, bytes and the five-word digest (00_scope.md R8, R13): the plainest types of the machine. -/

namespace Sys2Proof

/-- A word: a 32-bit unsigned value (R8). -/
abbrev Word := BitVec 32

/-- A byte: an 8-bit unsigned value (R8). -/
abbrev Byte := BitVec 8

/-- `ceil(a/b)` for naturals, `b >= 1` (R8: it equals `(a + b - 1) div b`). -/
def divUp (a b : Nat) : Nat := (a + b - 1) / b

/-- A 160-bit digest: five 32-bit words, `d0` the first (R13, R14, R136). `T` and `U` have this shape too (R34, R35). -/
structure Digest where
  d0 : Word
  d1 : Word
  d2 : Word
  d3 : Word
  d4 : Word
deriving DecidableEq, Repr, Inhabited

/-- The five words in index order. -/
def Digest.words (d : Digest) : List Word := [d.d0, d.d1, d.d2, d.d3, d.d4]

/-- The all-zero digest: a fresh accumulator (R34). -/
def Digest.zero : Digest := ⟨0, 0, 0, 0, 0⟩

/-- Word-wise XOR of two digests (R11 (a)). -/
def Digest.xor (a b : Digest) : Digest :=
  ⟨a.d0 ^^^ b.d0, a.d1 ^^^ b.d1, a.d2 ^^^ b.d2, a.d3 ^^^ b.d3, a.d4 ^^^ b.d4⟩

end Sys2Proof
end

