-- ==== Sys2Proof/Config.lean ====
section
/-! DEFINITION. The parameters of the block (00_scope.md R7) and the free values: what the spec leaves open is an opaque constant with no body, so nothing can be proved about it. -/

namespace Sys2Proof

/-- `IDX_MASK`: the mask applied to each byte of the block index, one of `0xFF` and `0x0F`, OPEN (R7, R134, D16). -/
inductive IdxMask where
  /-- `0xFF`: the normative text, RFC 2898's `INT(i)`. -/
  | full
  /-- `0x0F`: what the original code does. -/
  | nibble
deriving DecidableEq, Repr, Inhabited

/-- The mask byte itself. -/
def IdxMask.byte : IdxMask → Byte
  | .full => 0xFF
  | .nibble => 0x0F

/-- The byte spaces of R40 (`CW`, the one word space beside `REG`, is kept apart). -/
inductive ByteSpace where
  | pw
  | salt
  | result
  | cb
deriving DecidableEq, Repr

/-- The datapath registers whose reset value the spec leaves unspecified (R52). -/
inductive DatapathReg where
  | ipad
  | opad
  | t
  | u
  | t0
deriving DecidableEq, Repr

/-- The static parameters of one block (R7): fixed when the block is built, never written. A capacity of `none`
is the spec's "unbounded". `HASH` and `now` are functions and stand as constants of their own. -/
structure Params where
  /-- `IPC`, iterations per chunk. -/
  ipc : Nat
  /-- `IDX_MASK`. -/
  idxMask : IdxMask
  /-- `PW_MAX`, in bytes. -/
  pwMax : Option Nat
  /-- `SALT_MAX`, in bytes. -/
  saltMax : Option Nat
  /-- `DK_MAX`, in bytes of derived key. -/
  dkMax : Option Nat
  /-- `CB_MAX`, in bytes. -/
  cbMax : Option Nat
deriving DecidableEq, Repr

/-- DESIGN CHOICE (log 5): `IDX_MASK` of the machine right after power-on. OPEN in the spec, so no body. -/
opaque Config.idxMask : IdxMask

/-- The parameters of the machine right after power-on: the spec's default chunk size, unbounded capacities (D24
allows them), an unknown `IDX_MASK`. DESIGN CHOICE (log 5): statements range over every `Params`. -/
def Config.params : Params :=
  { ipc := 10, idxMask := Config.idxMask, pwMax := none, saltMax := none, dkMax := none, cbMax := none }

/-- Free value (log 7): the `k`-th reading of `now()` in environment `env`, under no law (R7, R230). -/
opaque Config.now : (env k : Nat) → Word

/-- Free value (log 8): what byte `a` of a byte space holds after the `resets`-th reset until something writes it (R52, U6). -/
opaque Config.resetByte : (env resets : Nat) → ByteSpace → (a : Nat) → Byte

/-- Free value (log 8): what word `a` of `CW` holds after the `resets`-th reset until something writes it (R52, U6). -/
opaque Config.resetCw : (env resets : Nat) → (a : Nat) → Word

/-- Free value (log 9): word `k` of a datapath register after the `resets`-th reset (R52, U6). -/
opaque Config.resetDatapath : (env resets : Nat) → DatapathReg → (k : Nat) → Word

/-- Free value (log 6): `HASH` on arguments outside the preconditions of R137, where the spec defines nothing (U9). -/
opaque Config.hashOutside : (w : List Word) → (n : Nat) → Digest

end Sys2Proof
end

