-- ==== Sys2Proof/Syntax.lean ====
section
/-! DEFINITION. The commands of the block (30_encoding.md R93): one constructor per row of the opcode table. No command carries an operand (R91, R92). -/

namespace Sys2Proof

/-- The six commands (R93). -/
inductive Instr where
  /-- Engine construction (R161). -/
  | init
  /-- Start a derivation (R181). -/
  | start
  /-- Run one chunk (R182). -/
  | step
  /-- Cancel the derivation (R193). -/
  | abort
  /-- Bytes to words, little-endian (R112). -/
  | pack
  /-- Words to bytes, little-endian (R115). -/
  | unpack
deriving DecidableEq, Repr

/-- Every command once, in the order of the opcode table. -/
def Instr.all : List Instr := [.init, .start, .step, .abort, .pack, .unpack]

end Sys2Proof
end

