-- ==== Sys2Proof/WellFormed.lean ====
section
/-! DEFINITION. What is well-formed: every command (none has a field to be wrong), a command word (30_encoding.md R90, R95) and the parameters of a block (00_scope.md R7). -/

namespace Sys2Proof

/-- A command has no register, immediate, mode or length field (R91), so every command is well-formed. -/
def Instr.wellFormed : Instr → Bool
  | .init => true
  | .start => true
  | .step => true
  | .abort => true
  | .pack => true
  | .unpack => true

/-- `RSV = w[31:4]` must be 0 (R90). -/
def rsvIsZero (w : Word) : Bool := w >>> 4 == 0

/-- The values of `OP = w[3:0]` that are not reserved (R93, R95). -/
def assignedOpcodes : List Nat := [0x1, 0x2, 0x3, 0x4, 0x8, 0x9]

/-- `OP` is one of the six assigned opcodes (R93). -/
def opIsAssigned (w : Word) : Bool := assignedOpcodes.contains (w.toNat % 16)

/-- A command word is well-formed when its reserved field is 0 and its opcode is assigned (R94). -/
def commandWordWellFormed (w : Word) : Bool := rsvIsZero w && opIsAssigned w

/-- `IPC >= 1` (R7, D9). -/
def Params.ipcPositive (p : Params) : Bool := 1 ≤ p.ipc

/-- `DK_MAX` is unbounded or at most `2^32 - 1` (R7). -/
def Params.dkMaxFits (p : Params) : Bool :=
  match p.dkMax with
  | none => true
  | some m => m ≤ 2 ^ 32 - 1

/-- The parameters R7 allows. -/
def Params.wellFormed (p : Params) : Bool := p.ipcPositive && p.dkMaxFits

end Sys2Proof
end

