-- ==== Sys2Proof/Decode.lean ====
section
/-! DEFINITION. Decoding a command word (30_encoding.md R90, R93 to R97), total on every 32-bit value, and the encoder written from the same tables. -/

namespace Sys2Proof

/-- Why a command word is illegal (R94, R95). Both are reported to the host as `ILLEGAL_CMD` (R221). -/
inductive DecodeError where
  /-- `w[31:4]` is not 0. -/
  | reservedBitsSet (rsv : BitVec 28)
  /-- `w[3:0]` is 0x0, 0x5, 0x6, 0x7 or 0xA to 0xF. -/
  | reservedOpcode (op : BitVec 4)
deriving DecidableEq, Repr

/-- Field `OP`, bits 3:0 (R90). -/
def opField (w : Word) : BitVec 4 := w.extractLsb' 0 4

/-- Field `RSV`, bits 31:4 (R90). -/
def rsvField (w : Word) : BitVec 28 := w.extractLsb' 4 28

/-- The opcode map (R93), on the field `OP`; `none` for the reserved opcodes of R95. -/
def instrOfOp (op : BitVec 4) : Option Instr :=
  match op with
  | 0x1#4 => some .init
  | 0x2#4 => some .start
  | 0x3#4 => some .step
  | 0x4#4 => some .abort
  | 0x8#4 => some .pack
  | 0x9#4 => some .unpack
  | _ => none

/-- Decode a command word (R94): a non-zero `RSV` is illegal whatever `OP` is, a reserved `OP` is illegal. -/
def decode (w : Word) : Except DecodeError Instr :=
  if rsvField w ≠ 0 then .error (.reservedBitsSet (rsvField w))
  else
    match instrOfOp (opField w) with
    | some i => .ok i
    | none => .error (.reservedOpcode (opField w))

/-- The opcode of each command (R93). -/
def opcode : Instr → BitVec 4
  | .init => 0x1
  | .start => 0x2
  | .step => 0x3
  | .abort => 0x4
  | .pack => 0x8
  | .unpack => 0x9

/-- The word of a command: `RSV = 0` above `OP` (R90). -/
def encode (i : Instr) : Word := (0 : BitVec 28) ++ opcode i

/-- One row of the opcode table: a word is this command when `(w and mask) = match` (R93, R101). -/
structure OpcodeRow where
  instr : Instr
  matchBits : Word
  mask : Word
deriving DecidableEq, Repr

/-- The opcode table of R93, as `opcode_table.json` has it (R101). -/
def opcodeTable : List OpcodeRow :=
  [⟨.init, 0x00000001, 0xFFFFFFFF⟩, ⟨.start, 0x00000002, 0xFFFFFFFF⟩, ⟨.step, 0x00000003, 0xFFFFFFFF⟩,
   ⟨.abort, 0x00000004, 0xFFFFFFFF⟩, ⟨.pack, 0x00000008, 0xFFFFFFFF⟩, ⟨.unpack, 0x00000009, 0xFFFFFFFF⟩]

/-- A decoder written from the table alone (R101): the row with `(w and mask) = match`, or none. -/
def decodeByTable (w : Word) : Option Instr :=
  (opcodeTable.find? fun r => w &&& r.mask == r.matchBits).map (·.instr)

/-- The command word a table row's bits stand for: one 32-bit write to `CMD` (R97), the bits above `nbits` 0. -/
def tableWord (nbits w : Nat) : Word := BitVec.ofNat 32 (w % 2 ^ nbits)

/-- What the decoder reads from a table row's bits; no command is longer than 32 bits (R97). -/
def decodeTableWord (nbits w : Nat) : Option Instr :=
  if w % 2 ^ nbits < 2 ^ 32 then
    match decode (tableWord nbits w) with
    | .ok i => some i
    | .error _ => none
  else none

end Sys2Proof
end

