-- ==== Sys2Proof/Machine/State.lean ====
section
/-! DEFINITION. The state of one PBK instance (10_state.md), as plain data, and the state right after reset (R52, R260). -/

namespace Sys2Proof.Machine

open Sys2Proof

/-- Faults: none. The block has no trapping condition (60_exceptions.md R241, R220), so the type has no constructor;
every access and command the spec describes has a next state (log 19). -/
inductive Fault
deriving DecidableEq, Repr

/-- Why a step is refused. -/
inductive Refusal where
  /-- Raised by a dispatch arm whose command has no meaning yet; safe. No arm raises it (log 19). -/
  | notModelled (mnemonic : String)
deriving DecidableEq, Repr

/-- `STATUS.PHASE`: the resting states of the engine (R23, D4). -/
inductive Phase where
  | unconf
  | idle
  | running
  | done
deriving DecidableEq, Repr

/-- The outcome code of the most recent command, register `ERR` (R25, R221). -/
inductive ErrCode where
  | ok
  | illegalCmd
  | badPhase
  | badParam
  | badLength
deriving DecidableEq, Repr

/-- One address space of equal elements, as the list of the elements written since reset. Canonical form (`Memory.wf`):
indices strictly rising; an unlisted index has no value of its own here and reads as the free reset contents (log 14). -/
abbrev Memory (α : Type) := List (Nat × α)

/-- The status and control registers other than `STATUS`. Reserved bits have no storage: they read 0 and ignore writes (R32). -/
structure Control where
  /-- `CTRL.AUTO` (R24). -/
  auto : Bool
  /-- `ERR` (R25). -/
  err : ErrCode
  /-- `IRQ_STATUS` bits 2:0: `ERR`, `DONE`, `PROG` from the top (R26). -/
  irqStatus : BitVec 3
  /-- `IRQ_ENABLE` bits 2:0 (R27). -/
  irqEnable : BitVec 3
deriving DecidableEq, Repr

/-- The input registers (R28) and the two input buffers (R41, R42). -/
structure Inputs where
  /-- `ITER_COUNT`. -/
  iterCount : Word
  /-- `DK_LEN`. -/
  dkLen : Word
  /-- `PW_LEN`. -/
  pwLen : Word
  /-- `SALT_LEN`. -/
  saltLen : Word
  /-- `PW`. -/
  pw : Memory Byte
  /-- `SALT`. -/
  salt : Memory Byte
deriving DecidableEq, Repr

/-- The PBKDF2 engine: sequencing state (R30), result and progress registers (R29), pads (R33), accumulator and chain
value (R34, R35), latched parameters (R36), start time (R37), result buffer (R43). -/
structure Engine where
  /-- `STATUS.PHASE`. -/
  phase : Phase
  /-- `BLOCKS`. -/
  blocks : Word
  /-- `BLK`, the 1-based index of the block in progress. -/
  blk : Word
  /-- `ITER`, iterations done in the current block. -/
  iter : Word
  /-- `RESULT_LEN` as a natural number; the register shows its low 32 bits (R195, log 10). -/
  resultLen : Nat
  /-- `ELAPSED`. -/
  elapsed : Word
  /-- `C`, the latched iteration count. -/
  c : Word
  /-- `DKLEN`, the latched key length. -/
  dkLen : Word
  /-- `SALT_L`, the latched salt. -/
  saltL : List Byte
  /-- `T0`. -/
  t0 : Word
  /-- `IPAD[0..15]`. -/
  ipad : Vector Word 16
  /-- `OPAD[0..15]`. -/
  opad : Vector Word 16
  /-- `T[0..4]`. -/
  t : Digest
  /-- `U[0..4]`. -/
  u : Digest
  /-- `RESULT`. -/
  result : Memory Byte
deriving DecidableEq, Repr

/-- The word codec: its registers (R31) and buffers (R44). -/
structure Codec where
  /-- `CB_LEN`. -/
  cbLen : Word
  /-- `CW_BITS` as a natural number; the register shows its low 32 bits (R113 (d), log 10). -/
  cwBits : Nat
  /-- `CB`. -/
  cb : Memory Byte
  /-- `CW`. -/
  cw : Memory Word
deriving DecidableEq, Repr

/-- An element of the output event stream (R50). -/
inductive Event where
  /-- `Progress(blk, iter)`: the counters after a chunk's iterations, before any block-completion update (R187). -/
  | progress (blk iter : Word)
  /-- `Done(hex, elapsed)` (R190). -/
  | done (hex : List Byte) (elapsed : Word)
deriving DecidableEq, Repr

/-- What a host read returned (R61, R63, R65); the model's own record (log 12). -/
inductive Reply where
  | reg (r : Nat) (v : Word)
  | byte (space : ByteSpace) (a : Nat) (b : Byte)
  | word (a : Nat) (w : Word)
deriving DecidableEq, Repr

/-- One place in the total order of transitions (R70): a host access (R60), a chance for the engine's own step (R185),
or reset (R260). Which comes next is data (log 1). -/
inductive Turn where
  /-- `RD r`. -/
  | rd (r : Nat)
  /-- `WR r, v`; with `r = 0` a command. -/
  | wr (r : Nat) (v : Word)
  /-- `RDB S[a]`. -/
  | rdb (space : ByteSpace) (a : Nat)
  /-- `WRB S[a], b`. -/
  | wrb (space : ByteSpace) (a : Nat) (b : Byte)
  /-- `RDW CW[a]`. -/
  | rdw (a : Nat)
  /-- `WRW CW[a], w`. -/
  | wrw (a : Nat) (w : Word)
  /-- The engine's own step, if it is enabled. -/
  | engine
  /-- The reset input. -/
  | reset
deriving DecidableEq, Repr

/-- The state of one instance (R20), with the parameters it was built with, its recorded outputs and the model's own
bookkeeping (`replies`, `pending`, `env`, `nowDraws`, `resets`; INVENTORY.md, State). -/
structure State where
  /-- The static parameters (R7); no step changes them (log 5). -/
  params : Params
  ctrl : Control
  inputs : Inputs
  engine : Engine
  codec : Codec
  /-- The event stream, oldest first (R50, log 13). -/
  events : List Event
  /-- Values host reads returned, oldest first (log 12). -/
  replies : List Reply
  /-- The transitions still to come, next first (log 1). -/
  pending : List Turn
  /-- Which environment's draws this instance sees (log 7). -/
  env : Nat
  /-- How many times `now()` has been read (log 7). -/
  nowDraws : Nat
  /-- How many resets have happened (log 8). -/
  resets : Nat
deriving DecidableEq, Repr

/-- Sixteen unspecified words after a reset (log 9). -/
def unspecifiedPad (env resets : Nat) (r : DatapathReg) : Vector Word 16 :=
  Vector.ofFn fun k => Config.resetDatapath env resets r k.val

/-- Five unspecified words after a reset (log 9). -/
def unspecifiedDigest (env resets : Nat) (r : DatapathReg) : Digest :=
  ⟨Config.resetDatapath env resets r 0, Config.resetDatapath env resets r 1, Config.resetDatapath env resets r 2,
   Config.resetDatapath env resets r 3, Config.resetDatapath env resets r 4⟩

/-- The engine after a reset (R52). -/
def Engine.atReset (env resets : Nat) : Engine :=
  { phase := .unconf, blocks := 0, blk := 0, iter := 0, resultLen := 0, elapsed := 0,
    c := 0, dkLen := 0, saltL := [],
    t0 := Config.resetDatapath env resets .t0 0,
    ipad := unspecifiedPad env resets .ipad,
    opad := unspecifiedPad env resets .opad,
    t := unspecifiedDigest env resets .t,
    u := unspecifiedDigest env resets .u,
    result := [] }

/-- The whole state of a block with parameters `p` after its `resets`-th reset (R52). -/
def State.atReset (p : Params) (env resets : Nat) : State :=
  { params := p,
    ctrl := { auto := false, err := .ok, irqStatus := 0, irqEnable := 0 },
    inputs := { iterCount := 0, dkLen := 0, pwLen := 0, saltLen := 0, pw := [], salt := [] },
    engine := Engine.atReset env resets,
    codec := { cbLen := 0, cwBits := 0, cb := [], cw := [] },
    events := [], replies := [], pending := [],
    env := env, nowDraws := 0, resets := resets }

/-- The machine right after power-on reset (R52, R260); the values the spec leaves open are named in logs 5, 7, 8, 9. -/
def State.reset : State := State.atReset Config.params 0 0

end Sys2Proof.Machine
end

