-- ==== Sys2Proof/Machine/Flags.lean ====
section
/-! DEFINITION. The status bits of the block (10_state.md R45: there are no arithmetic flags): the codes of `PHASE` and `ERR`, the bits of `IRQ_STATUS`, how they are set and cleared, and the `irq` line. -/

namespace Sys2Proof.Machine

open Sys2Proof

/-- `STATUS[1:0]` (R23). -/
def phaseCode : Phase → Word
  | .unconf => 0
  | .idle => 1
  | .running => 2
  | .done => 3

/-- `ERR[2:0]` (R25, R221). -/
def errCode : ErrCode → Word
  | .ok => 0
  | .illegalCmd => 1
  | .badPhase => 2
  | .badParam => 3
  | .badLength => 4

/-- Bit 0 of `IRQ_STATUS` and `IRQ_ENABLE` (R26). -/
def irqProg : BitVec 3 := 1

/-- Bit 1 (R26). -/
def irqDone : BitVec 3 := 2

/-- Bit 2 (R26). -/
def irqErr : BitVec 3 := 4

/-- Set pending bits (R227); masking does not stop a bit from being set (R228). -/
def raiseIrq (bits : BitVec 3) (s : State) : State :=
  { s with ctrl := { s.ctrl with irqStatus := s.ctrl.irqStatus ||| bits } }

/-- Write-1-to-clear (R26, R62): `IRQ_STATUS <- IRQ_STATUS and not v` on bits 2:0. -/
def clearIrq (v : Word) (s : State) : State :=
  { s with ctrl := { s.ctrl with irqStatus := s.ctrl.irqStatus &&& ~~~(v.setWidth 3) } }

/-- The `irq` output (R51): 1 exactly when some bit is both pending and enabled. -/
def irqLine (s : State) : Bool := s.ctrl.irqStatus &&& s.ctrl.irqEnable != 0

end Sys2Proof.Machine
end

