-- ==== Sys2Proof/Machine/Ops.lean ====
section
/-! DEFINITION. The named operations over memory and registers: `MemRead` and `MemWrite` (00_scope.md R10), register reads and writes (20_memory.md R61, R62), buffer accesses (R63 to R66), events, `now()`, rejection and acceptance of a command (60_exceptions.md R222), reset (70_reset_and_hazards.md R260). -/

namespace Sys2Proof.Machine

open Sys2Proof

/-- The canonical form of a memory: indices strictly rising. -/
abbrev Memory.wf {α : Type} (m : Memory α) : Prop := m.Pairwise fun x y => x.1 < y.1

/-- The element written at index `a`, if one was since reset. -/
def Memory.lookup {α : Type} : Memory α → Nat → Option α
  | [], _ => none
  | (k, v) :: m, a => if k = a then some v else Memory.lookup m a

/-- Write one element, keeping the canonical form. -/
def Memory.store {α : Type} : Memory α → Nat → α → Memory α
  | [], a, v => [(a, v)]
  | (k, x) :: m, a, v =>
    if a < k then (a, v) :: (k, x) :: m
    else if a = k then (a, v) :: m
    else (k, x) :: Memory.store m a v

/-- `MemWrite(S:a, n, v)`: consecutive elements from `a` on (R10). -/
def Memory.storeSeq {α : Type} : Memory α → Nat → List α → Memory α
  | m, _, [] => m
  | m, a, v :: vs => Memory.storeSeq (Memory.store m a v) (a + 1) vs

/-- Index `a` lies below the size of its space; every index does when the capacity is unbounded (R66). -/
def inSpace : Option Nat → Nat → Bool
  | none, _ => true
  | some size, a => decide (a < size)

/-- A length does not exceed a capacity; nothing exceeds an unbounded one (R221). -/
def fits : Option Nat → Nat → Bool
  | none, _ => true
  | some cap, n => decide (n ≤ cap)

/-- The size of each byte space in elements (R40). -/
def byteSize (p : Params) : ByteSpace → Option Nat
  | .pw => p.pwMax
  | .salt => p.saltMax
  | .result => p.dkMax.map (2 * ·)
  | .cb => p.cbMax

/-- The size of `CW` in words: `ceil(CB_MAX/4)` (R40). -/
def cwSize (p : Params) : Option Nat := p.cbMax.map (divUp · 4)

/-- What a byte space holds. -/
def byteMem (s : State) : ByteSpace → Memory Byte
  | .pw => s.inputs.pw
  | .salt => s.inputs.salt
  | .result => s.engine.result
  | .cb => s.codec.cb

/-- The byte at index `a` of a space; one nothing has written since reset has the unspecified reset content (R63, R52). -/
def readByte (s : State) (space : ByteSpace) (a : Nat) : Byte :=
  ((byteMem s space).lookup a).getD (Config.resetByte s.env s.resets space a)

/-- The word at index `a` of `CW` (R65, R52). -/
def readCw (s : State) (a : Nat) : Word :=
  (s.codec.cw.lookup a).getD (Config.resetCw s.env s.resets a)

/-- `MemRead(S:a, n)` for a byte space (R10). -/
def readBytes (s : State) (space : ByteSpace) (a n : Nat) : List Byte :=
  (List.range n).map fun k => readByte s space (a + k)

/-- `MemRead(CW:a, n)` (R10). -/
def readCws (s : State) (a n : Nat) : List Word :=
  (List.range n).map fun k => readCw s (a + k)

/-- Host read of one byte (R63); at or beyond the size it returns 0 (R66). -/
def hostReadByte (s : State) (space : ByteSpace) (a : Nat) : Byte :=
  if inSpace (byteSize s.params space) a then readByte s space a else 0

/-- Host write of one byte (R64): `RESULT` is read-only to the host; at or beyond the size nothing is written (R66). -/
def hostWriteByte (s : State) (space : ByteSpace) (a : Nat) (b : Byte) : State :=
  if inSpace (byteSize s.params space) a then
    match space with
    | .pw => { s with inputs := { s.inputs with pw := s.inputs.pw.store a b } }
    | .salt => { s with inputs := { s.inputs with salt := s.inputs.salt.store a b } }
    | .result => s
    | .cb => { s with codec := { s.codec with cb := s.codec.cb.store a b } }
  else s

/-- Host read of one word of `CW` (R65, R66). -/
def hostReadCw (s : State) (a : Nat) : Word :=
  if inSpace (cwSize s.params) a then readCw s a else 0

/-- Host write of one word of `CW` (R65, R66). -/
def hostWriteCw (s : State) (a : Nat) (w : Word) : State :=
  if inSpace (cwSize s.params) a then { s with codec := { s.codec with cw := s.codec.cw.store a w } } else s

/-- `RD r` (R61): the register's current value with reserved bits 0; 0 for `CMD` and for every number above 17 (R32). -/
def readReg (s : State) (r : Nat) : Word :=
  match r with
  | 0 => 0
  | 1 => phaseCode s.engine.phase
  | 2 => if s.ctrl.auto then 1 else 0
  | 3 => errCode s.ctrl.err
  | 4 => s.ctrl.irqStatus.setWidth 32
  | 5 => s.ctrl.irqEnable.setWidth 32
  | 6 => s.inputs.iterCount
  | 7 => s.inputs.dkLen
  | 8 => s.inputs.pwLen
  | 9 => s.inputs.saltLen
  | 10 => s.engine.blocks
  | 11 => s.engine.blk
  | 12 => s.engine.iter
  | 13 => BitVec.ofNat 32 s.engine.resultLen
  | 14 => s.engine.elapsed
  | 15 => BitVec.ofNat 32 s.params.ipc
  | 16 => s.codec.cbLen
  | 17 => BitVec.ofNat 32 s.codec.cwBits
  | _ => 0

/-- `WR r, v` for a register other than `CMD` (R62): read-only registers and numbers above 17 ignore it. -/
def writeReg (s : State) (r : Nat) (v : Word) : State :=
  match r with
  | 2 => { s with ctrl := { s.ctrl with auto := v.getLsbD 0 } }
  | 4 => clearIrq v s
  | 5 => { s with ctrl := { s.ctrl with irqEnable := v.setWidth 3 } }
  | 6 => { s with inputs := { s.inputs with iterCount := v } }
  | 7 => { s with inputs := { s.inputs with dkLen := v } }
  | 8 => { s with inputs := { s.inputs with pwLen := v } }
  | 9 => { s with inputs := { s.inputs with saltLen := v } }
  | 16 => { s with codec := { s.codec with cbLen := v } }
  | 17 => { s with codec := { s.codec with cwBits := v.toNat } }
  | _ => s

/-- `emit E` (R10, R50): append an event to the output stream. -/
def emit (e : Event) (s : State) : State := { s with events := s.events ++ [e] }

/-- Record the value a host read returned (log 12). -/
def reply (r : Reply) (s : State) : State := { s with replies := s.replies ++ [r] }

/-- The value `now()` gives when it is read in this state (R230); a draw (log 7). -/
def nowValue (s : State) : Word := Config.now s.env s.nowDraws

/-- The draw is used up: the next `now()` is another one (log 7). -/
def consumeNow (s : State) : State := { s with nowDraws := s.nowDraws + 1 }

/-- `raise <Code>` (R222), the one exception of the block: the code in `ERR`, the sticky bit in `IRQ_STATUS`, and nothing
else. There is no handler, no saved state and nothing to return from (R225). -/
def reject (code : ErrCode) (s : State) : State :=
  raiseIrq irqErr { s with ctrl := { s.ctrl with err := code } }

/-- The last effect of every accepted command (R222): `ERR <- OK`; `IRQ_STATUS.ERR` is not touched. -/
def accept (s : State) : State := { s with ctrl := { s.ctrl with err := .ok } }

/-- Reset (R260): every piece of the block's state as R52 has it. The parameters stay; so do the model's own records of
what is still to come, what was read and which draws are used up. -/
def resetBlock (s : State) : State :=
  { State.atReset s.params s.env (s.resets + 1) with
    replies := s.replies, pending := s.pending, nowDraws := s.nowDraws }

end Sys2Proof.Machine
end

