-- ==== Sys2Proof/Machine/Operands.lean ====
section
/-! DEFINITION. Operand assembly (30_encoding.md R92): every operand of a command is a named register read as a whole unsigned value, or the buffer slice such a register delimits. -/

namespace Sys2Proof.Machine

open Sys2Proof

/-- `MemRead(PW:0, PW_LEN)` (R78, R161). -/
def passwordOperand (s : State) : List Byte := readBytes s .pw 0 s.inputs.pwLen.toNat

/-- `MemRead(SALT:0, SALT_LEN)` (R78, R161). -/
def saltOperand (s : State) : List Byte := readBytes s .salt 0 s.inputs.saltLen.toNat

/-- `MemRead(CB:0, CB_LEN)` (R78, R112). -/
def codecBytesOperand (s : State) : List Byte := readBytes s .cb 0 s.codec.cbLen.toNat

/-- `MemRead(CW:0, ceil(CW_BITS/32))` (R78, R115). -/
def codecWordsOperand (s : State) : List Word := readCws s 0 (divUp s.codec.cwBits 32)

/-- `INIT`'s parameter check (R161, R168): a zero count or a zero key length. -/
def initParamBad (s : State) : Bool := s.inputs.iterCount == 0 || s.inputs.dkLen == 0

/-- `INIT`'s length check (R161): every length within its capacity. -/
def initLengthsFit (s : State) : Bool :=
  fits s.params.pwMax s.inputs.pwLen.toNat && fits s.params.saltMax s.inputs.saltLen.toNat &&
    fits s.params.dkMax s.inputs.dkLen.toNat

/-- `PACK`'s length check (R112). -/
def packLengthFits (s : State) : Bool := fits s.params.cbMax s.codec.cbLen.toNat

/-- `UNPACK`'s two length checks (R115): whole bytes, within the capacity. -/
def unpackLengthFits (s : State) : Bool :=
  s.codec.cwBits % 8 == 0 && fits s.params.cbMax (s.codec.cwBits / 8)

end Sys2Proof.Machine
end

