-- ==== Sys2Proof/Machine/Packing.lean ====
section
/-! DEFINITION. The two packings, which are never mixed (70_reset_and_hazards.md R266): the little-endian codec functions (40_codec.md R111, R114), and the big-endian packer, hex formatter and block index of the hash (41_hash_packing_hmac.md R130, R132, R134). -/

namespace Sys2Proof.Machine

open Sys2Proof

/-- `lepack(b)` (R111): byte `4m+q` in bits `8q+7 : 8q` of word `m`, unfilled bits 0. -/
def lepack (b : List Byte) : List Word :=
  (List.range (divUp b.length 4)).map fun m =>
    (b.getD (4 * m + 3) 0 ++ b.getD (4 * m + 2) 0 ++ b.getD (4 * m + 1) 0 ++ b.getD (4 * m) 0 : BitVec 32)

/-- `leunpack(w, L)` (R114): byte `k` is bits `8*(k mod 4)+7 : 8*(k mod 4)` of word `k div 4`. -/
def leunpack (w : List Word) (bits : Nat) : List Byte :=
  (List.range (bits / 8)).map fun k => (w.getD (k / 4) 0).extractLsb' (8 * (k % 4)) 8

/-- `bpack(s, 8)` (R130): character `4m+q` in bits `31-8q : 24-8q` of word `m`, uncovered bits 0. -/
def bpack8 (s : List Byte) : List Word :=
  (List.range (divUp (s.length * 8) 32)).map fun m =>
    (s.getD (4 * m) 0 ++ s.getD (4 * m + 1) 0 ++ s.getD (4 * m + 2) 0 ++ s.getD (4 * m + 3) 0 : BitVec 32)

/-- `bpack(s, 16)` (R130): character `2m+q` in bits `31-16q : 16-16q` of word `m`. No command reaches it (D17). -/
def bpack16 (s : List (BitVec 16)) : List Word :=
  (List.range (divUp (s.length * 16) 32)).map fun m => (s.getD (2 * m) 0 ++ s.getD (2 * m + 1) 0 : BitVec 32)

/-- `hexdigit(v)` (R132): `0x30 + v` up to 9, `0x61 + (v - 10)` from 10 on. -/
def hexDigit (v : BitVec 4) : Byte :=
  if v.toNat ≤ 9 then BitVec.ofNat 8 (0x30 + v.toNat) else BitVec.ofNat 8 (0x61 + (v.toNat - 10))

/-- The eight hex characters of a word, bits 31:28 first (R132). -/
def wordHex (w : Word) : List Byte :=
  (List.range 8).map fun r => hexDigit (w.extractLsb' (28 - 4 * r) 4)

/-- `bhex(w)` (R132). -/
def bhex (ws : List Word) : List Byte := ws.flatMap wordHex

/-- `idx4(i)` (R134): the four bytes of the block index, most significant first, each masked. -/
def idx4 (mask : IdxMask) (i : Word) : List Byte :=
  [(i >>> 24).setWidth 8 &&& mask.byte, (i >>> 16).setWidth 8 &&& mask.byte, (i >>> 8).setWidth 8 &&& mask.byte,
   i.setWidth 8 &&& mask.byte]

end Sys2Proof.Machine
end

