-- ==== Sys2Proof/Machine/Codec.lean ====
section
/-! DEFINITION. The codec commands `PACK` and `UNPACK` (40_codec.md R112, R115). -/

namespace Sys2Proof.Machine

open Sys2Proof

/-- What an accepted `PACK` writes: `CW[0 .. ceil(n/4))` and `CW_BITS` (R112). -/
def packCodec (s : State) : Codec :=
  { s.codec with
    cw := s.codec.cw.storeSeq 0 (lepack (codecBytesOperand s)),
    cwBits := 8 * s.codec.cbLen.toNat }

/-- `PACK` (R112). -/
def execPack (s : State) : Host.Outcome State Fault Refusal :=
  if packLengthFits s then .next (accept { s with codec := packCodec s }) else .next (reject .badLength s)

/-- What an accepted `UNPACK` writes: `CB[0 .. L/8)` and `CB_LEN` (R115). -/
def unpackCodec (s : State) : Codec :=
  { s.codec with
    cb := s.codec.cb.storeSeq 0 (leunpack (codecWordsOperand s) s.codec.cwBits),
    cbLen := BitVec.ofNat 32 (s.codec.cwBits / 8) }

/-- `UNPACK` (R115). -/
def execUnpack (s : State) : Host.Outcome State Fault Refusal :=
  if unpackLengthFits s then .next (accept { s with codec := unpackCodec s }) else .next (reject .badLength s)

end Sys2Proof.Machine
end

