-- ==== Sys2Proof/Machine/Hash.lean ====
section
/-! DEFINITION. The hash port (41_hash_packing_hmac.md R136, R137): `HASH` equals SHA-1 on every call the engine can make, and is a free value outside those preconditions. SHA-1 is written from 93_implementation_defined.md G1. -/

namespace Sys2Proof.Machine

open Sys2Proof

/-- The padded message (G1): the 1 bit after the `n` message bits, zeros, the 64-bit length in the last two words. -/
def sha1Pad (w : List Word) (n : Nat) : List Word :=
  let m := if n % 32 = 0 then w ++ [0] else w
  let m := m.modify (n / 32) fun x => x ||| (0x80#32 <<< (24 - n % 32))
  let zeros := (14 + 16 - m.length % 16) % 16
  m ++ List.replicate zeros (0 : Word) ++ [BitVec.ofNat 32 (n >>> 32), BitVec.ofNat 32 n]

/-- One word more of the message schedule, kept newest first (G1: `x[t]` from `x[t-3]`, `x[t-8]`, `x[t-14]`, `x[t-16]`). -/
def sha1Expand : Nat → List Word → List Word
  | 0, xs => xs
  | k + 1, xs =>
    sha1Expand k (((xs.getD 2 0 ^^^ xs.getD 7 0 ^^^ xs.getD 13 0 ^^^ xs.getD 15 0).rotateLeft 1) :: xs)

/-- The round function of round `t` (G1). -/
def sha1F (t : Nat) (b c d : Word) : Word :=
  if t < 20 then (b &&& c) ||| (~~~b &&& d)
  else if t < 40 then b ^^^ c ^^^ d
  else if t < 60 then (b &&& c) ||| (b &&& d) ||| (c &&& d)
  else b ^^^ c ^^^ d

/-- The constant of round `t` (G1). -/
def sha1K (t : Nat) : Word :=
  if t < 20 then 0x5A827999
  else if t < 40 then 0x6ED9EBA1
  else if t < 60 then 0x8F1BBCDC
  else 0xCA62C1D6

/-- Rounds `t`, `t+1`, ... over the schedule words `xs` (G1). -/
def sha1Rounds : Nat → List Word → Digest → Digest
  | _, [], h => h
  | t, x :: xs, ⟨a, b, c, d, e⟩ =>
    sha1Rounds (t + 1) xs
      ⟨a.rotateLeft 5 + sha1F t b c d + e + sha1K t + x, a, b.rotateLeft 30, c, d⟩

/-- The compression of one 16-word block into the chaining value (G1). -/
def sha1Block (h : Digest) (block : List Word) : Digest :=
  let r := sha1Rounds 0 (sha1Expand 64 block.reverse).reverse h
  ⟨h.d0 + r.d0, h.d1 + r.d1, h.d2 + r.d2, h.d3 + r.d3, h.d4 + r.d4⟩

/-- The first `k` 16-word blocks of a word sequence, in order (G1). -/
def sha1Blocks : Nat → List Word → Digest → Digest
  | 0, _, h => h
  | k + 1, ws, h => sha1Blocks k (ws.drop 16) (sha1Block h (ws.take 16))

/-- The initial chaining value (G1). -/
def sha1Init : Digest := ⟨0x67452301, 0xEFCDAB89, 0x98BADCFE, 0x10325476, 0xC3D2E1F0⟩

/-- SHA-1 of the first `n` bits of a word sequence (G1). -/
def sha1 (w : List Word) (n : Nat) : Digest :=
  let m := sha1Pad w n
  sha1Blocks (m.length / 16) m sha1Init

/-- The bits of a word at or beyond position `k`, counted from bit 31 down, are 0. -/
def lowBitsZero (x : Word) (k : Nat) : Bool := x <<< k == 0

/-- R137: (a) `len(w) = ceil(n/32)`; (b) every bit at or beyond stream position `n` is 0; (c) `n` is a multiple of 8. -/
def hashPre (w : List Word) (n : Nat) : Bool :=
  w.length == divUp n 32 && (n % 32 == 0 || lowBitsZero (w.getD (n / 32) 0) (n % 32)) && n % 8 == 0

/-- `HASH(w, n)` (R136): SHA-1 under R137's preconditions; outside them the spec defines nothing (U9, log 6). -/
def hashPort (w : List Word) (n : Nat) : Digest :=
  if hashPre w n then sha1 w n else Config.hashOutside w n

end Sys2Proof.Machine
end

