-- ==== Sys2Proof/Machine/Hmac.lean ====
section
/-! DEFINITION. The PRF (41_hash_packing_hmac.md R138), its two message forms (R139), and the pad words of a password (42_engine_construct.md R162 to R164). -/

namespace Sys2Proof.Machine

open Sys2Proof

/-- `hmac(m, mbits)` under the pads of an engine (R138). -/
def hmac (ipad opad : Vector Word 16) (m : List Word) (mbits : Nat) : Digest :=
  let inner := hashPort (ipad.toList ++ m) (512 + mbits)
  hashPort (opad.toList ++ inner.words) (512 + 160)

/-- The first message of block `i`, as bytes: `SALT_L ++ idx4(i)` (R139). -/
def firstMessageBytes (mask : IdxMask) (saltL : List Byte) (i : Word) : List Byte := saltL ++ idx4 mask i

/-- `U` of the first iteration of block `i` (R139). -/
def firstU (mask : IdxMask) (e : Engine) (i : Word) : Digest :=
  hmac e.ipad e.opad (bpack8 (firstMessageBytes mask e.saltL i)) (8 * (e.saltL.length + 4))

/-- `U` of every other iteration (R139): the previous digest's five words as they are, 160 bits. -/
def nextU (e : Engine) (u : Digest) : Digest := hmac e.ipad e.opad u.words 160

/-- The key words of a password (R162, R163): packed, and replaced by its digest when it has more than 16 words. -/
def keyWords (pw : List Byte) : List Word :=
  let key := bpack8 pw
  if 16 < key.length then (hashPort key (8 * pw.length)).words else key

/-- The pad word of R164 (inner). -/
def ipadWord : Word := 0x36363636

/-- The pad word of R164 (outer). -/
def opadWord : Word := 0x5C5C5C5C

/-- Sixteen key words, zero-extended, each XORed with a pad word (R164). -/
def padWords (key : List Word) (pad : Word) : Vector Word 16 :=
  Vector.ofFn fun k => key.getD k.val 0 ^^^ pad

end Sys2Proof.Machine
end

