-- ==== Sys2Proof/Machine/Construct.lean ====
section
/-! DEFINITION. Engine construction: the command `INIT` (42_engine_construct.md R161). -/

namespace Sys2Proof.Machine

open Sys2Proof

/-- The engine an accepted `INIT` leaves (R161, R163 to R166): pads, latched parameters, fresh derivation state; `U`, `T0`
and the contents of `RESULT` stay. -/
def constructEngine (s : State) : Engine :=
  let key := keyWords (passwordOperand s)
  { s.engine with
    ipad := padWords key ipadWord,
    opad := padWords key opadWord,
    c := s.inputs.iterCount,
    dkLen := s.inputs.dkLen,
    saltL := saltOperand s,
    blocks := BitVec.ofNat 32 (divUp s.inputs.dkLen.toNat 20),
    blk := 1, iter := 0, t := Digest.zero,
    resultLen := 0, elapsed := 0,
    phase := .idle }

/-- `INIT` (R161), with its checks in the order of R223. -/
def execInit (s : State) : Host.Outcome State Fault Refusal :=
  if s.engine.phase = .running then .next (reject .badPhase s)
  else if initParamBad s then .next (reject .badParam s)
  else if !initLengthsFit s then .next (reject .badLength s)
  else .next (accept { s with engine := constructEngine s })

end Sys2Proof.Machine
end

