-- ==== Sys2Proof/Machine/Run.lean ====
section
/-! DEFINITION. The run (43_engine_run.md): the commands `START`, `STEP` and `ABORT`, the chunk transition both triggers share (R186), and the fraction a `Progress` event denotes (R187). -/

namespace Sys2Proof.Machine

open Sys2Proof

/-- One iteration (R186): the PRF on the first message when `ITER = 0`, else on the previous digest; XOR into `T`. -/
def oneIteration (mask : IdxMask) (e : Engine) : Engine :=
  let u := if e.iter = 0 then firstU mask e e.blk else nextU e e.u
  { e with u := u, t := e.t.xor u, iter := e.iter + 1 }

/-- `n` iterations in a row (R186). -/
def iterations (mask : IdxMask) : Nat → Engine → Engine
  | 0, e => e
  | n + 1, e => iterations mask n (oneIteration mask e)

/-- How many iterations the next chunk runs: `min(IPC, C - ITER)` (R186). -/
def chunkSize (s : State) : Nat := min s.params.ipc (s.engine.c.toNat - s.engine.iter.toNat)

/-- The block in progress is the last one (R186). -/
def isLastBlock (e : Engine) : Bool := e.blk == e.blocks

/-- How many characters a completed block keeps (R186, R189). -/
def keepChars (e : Engine) : Nat :=
  if isLastBlock e then 2 * e.dkLen.toNat - 40 * (e.blocks.toNat - 1) else 40

/-- Block completion in the engine (R188): append the kept characters, fresh accumulator, next block. -/
def completeBlock (e : Engine) : Engine :=
  { e with
    result := e.result.storeSeq e.resultLen ((bhex e.t.words).take (keepChars e)),
    resultLen := e.resultLen + keepChars e,
    t := Digest.zero, iter := 0, blk := e.blk + 1 }

/-- The end of the derivation (R190): `ELAPSED`, `DONE`, the `Done` event with `RESULT[0 .. RESULT_LEN)`, the sticky bit. -/
def finishDerivation (s : State) : State :=
  let elapsed := nowValue s - s.engine.t0
  let s := consumeNow { s with engine := { s.engine with elapsed := elapsed, phase := .done } }
  raiseIrq irqDone (emit (.done (readBytes s .result 0 s.engine.resultLen) elapsed) s)

/-- The iterations of a chunk and its `Progress` (R186, R187). -/
def chunkProgress (s : State) : State :=
  let e := iterations s.params.idxMask (chunkSize s) s.engine
  raiseIrq irqProg (emit (.progress e.blk e.iter) { s with engine := e })

/-- What follows the `Progress` of the chunk that completed a block (R188 to R191). -/
def chunkCompletion (s : State) : State :=
  let s' := { s with engine := completeBlock s.engine }
  if isLastBlock s.engine then finishDerivation s' else s'

/-- `chunk()` (R186), the one procedure `STEP` and the engine's own step run; it cannot fail. -/
def chunk (s : State) : State :=
  let s' := chunkProgress s
  if s'.engine.iter.toNat < s'.engine.c.toNat then s' else chunkCompletion s'

/-- The engine's own step is enabled (R185). -/
def engineEnabled (s : State) : Bool := s.ctrl.auto && decide (s.engine.phase = .running)

/-- `START` (R181). -/
def execStart (s : State) : Host.Outcome State Fault Refusal :=
  if s.engine.phase = .idle then
    .next (accept (consumeNow { s with engine := { s.engine with t0 := nowValue s, phase := .running } }))
  else .next (reject .badPhase s)

/-- `STEP` (R182). -/
def execStep (s : State) : Host.Outcome State Fault Refusal :=
  if s.engine.phase = .running then .next (accept (chunk s)) else .next (reject .badPhase s)

/-- The engine an accepted `ABORT` leaves (R193): the construction kept, the derivation state fresh. -/
def abortEngine (e : Engine) : Engine :=
  { e with blk := 1, iter := 0, t := Digest.zero, resultLen := 0, phase := .idle }

/-- `ABORT` (R193). -/
def execAbort (s : State) : Host.Outcome State Fault Refusal :=
  if s.engine.phase = .running then .next (accept { s with engine := abortEngine s.engine })
  else .next (reject .badPhase s)

/-- The fraction `Progress(blk, iter)` denotes, an exact rational (R187). -/
def progressFraction (e : Engine) (blk iter : Word) : Rat :=
  (((blk.toNat - 1) * e.c.toNat + iter.toNat : Nat) : Rat) / ((e.blocks.toNat * e.c.toNat : Nat) : Rat)

end Sys2Proof.Machine
end

