-- ==== Sys2Proof/Machine/HostAccess.lean ====
section
/-! DEFINITION. The transitions of the block (20_memory.md R60, R70): host accesses, the command a write to `CMD` issues (30_encoding.md R94), the engine's own step (43_engine_run.md R185), reset; and how the next one is taken from the turns still to come. -/

namespace Sys2Proof.Machine

open Sys2Proof

/-- A write of `w` to `CMD` (R94): decoded and run to its end, or rejected with `ILLEGAL_CMD`. -/
def issueCommand (w : Word) (s : State) : Host.Outcome State Fault Refusal :=
  match decode w with
  | .ok i => exec i s
  | .error _ => .next (reject .illegalCmd s)

/-- The engine's own step (R185): a chunk that does not touch `ERR`; where it is not enabled the engine has no step and
its turn passes (log 3). -/
def engineTurn (s : State) : State := if engineEnabled s then chunk s else s

/-- One transition. -/
def takeTurn (t : Turn) (s : State) : Host.Outcome State Fault Refusal :=
  match t with
  | .rd r => .next (reply (.reg r (readReg s r)) s)
  | .wr r v => if r = 0 then issueCommand v s else .next (writeReg s r v)
  | .rdb space a => .next (reply (.byte space a (hostReadByte s space a)) s)
  | .wrb space a b => .next (hostWriteByte s space a b)
  | .rdw a => .next (reply (.word a (hostReadCw s a)) s)
  | .wrw a w => .next (hostWriteCw s a w)
  | .engine => .next (engineTurn s)
  | .reset => .next (resetBlock s)

/-- Take the next transition of the total order. When the host has nothing pending, the engine's own step runs if it is
enabled, and otherwise the block rests as it is (R241, R262, log 2). -/
def nextTurn (s : State) : Host.Outcome State Fault Refusal :=
  match s.pending with
  | [] => .next (engineTurn s)
  | t :: rest => takeTurn t { s with pending := rest }

/-- Put a write of a command word to `CMD` before every other pending transition (log 4). -/
def placeCommand (s : State) (w : Word) : State := { s with pending := .wr 0 w :: s.pending }

end Sys2Proof.Machine
end

