-- ==== Sys2Proof/Machine/Step.lean ====
section
/-! DEFINITION. One step of the machine: one atomic transition of the total order (20_memory.md R70). -/

namespace Sys2Proof.Machine

open Sys2Proof

/-- One step (R70). -/
def step (s : State) : Host.Outcome State Fault Refusal := nextTurn s

/-- The command of a table row, placed where `step` takes its next transition (log 4). -/
def State.withFetchWord (s : State) (nbits w : Nat) : State := placeCommand s (tableWord nbits w)

end Sys2Proof.Machine
end

