-- ==== Sys2Proof/Machine/Instances.lean ====
section
/-! DEFINITION. Several instances (60_exceptions.md R236): the product of independent machines with interleaved transitions. -/

namespace Sys2Proof.Machine

open Sys2Proof

/-- A transition of instance `k` of a product: that instance steps, every other stays. `none` where there is no such
instance or its step does not answer a next state. -/
def stepInstance (ss : List State) (k : Nat) : Option (List State) :=
  match ss[k]? with
  | none => none
  | some s =>
    match step s with
    | .next t => some (ss.set k t)
    | .fault _ => none
    | .refused _ => none

end Sys2Proof.Machine
end

