-- ==== Sys2Proof/Machine/Script.lean ====
section
/-! DEFINITION. Host scripts (30_encoding.md R98, R99): the access tuple of each line and the expansions of the pseudo-instructions, as lists of turns. -/

namespace Sys2Proof.Machine

open Sys2Proof

/-- The six address spaces (R40). -/
inductive Space where
  | reg
  | bytes (space : ByteSpace)
  | cw
deriving DecidableEq, Repr

/-- The encoding of an access: (space, index, value), no value for a read (R98). The engine's own step and reset are no
host accesses and have none (R101). -/
def accessTuple : Turn → Option (Space × Nat × Option Word)
  | .rd r => some (.reg, r, none)
  | .wr r v => some (.reg, r, some v)
  | .rdb space a => some (.bytes space, a, none)
  | .wrb space a b => some (.bytes space, a, some (b.setWidth 32))
  | .rdw a => some (.cw, a, none)
  | .wrw a w => some (.cw, a, some w)
  | .engine => none
  | .reset => none

/-- `CMD <mnemonic>` (R98). -/
def scriptCmd (i : Instr) : Turn := .wr 0 (encode i)

/-- The spaces `LOAD` and `LOADB` write (R99). -/
inductive LoadSpace where
  | pw
  | salt
  | cb
deriving DecidableEq, Repr

/-- The buffer of a load space. -/
def loadBuffer : LoadSpace → ByteSpace
  | .pw => .pw
  | .salt => .salt
  | .cb => .cb

/-- The number of its length register (R21, R99). -/
def loadLengthReg : LoadSpace → Nat
  | .pw => 8
  | .salt => 9
  | .cb => 16

/-- `LOADB <space>, b0 b1 ...` (R99): the bytes from index 0 on, then the length register. `LOAD` is the same on the ASCII
codes of its text. -/
def scriptLoad (space : LoadSpace) (bytes : List Byte) : List Turn :=
  (List.range bytes.length).map (fun k => .wrb (loadBuffer space) k (bytes.getD k 0)) ++
    [.wr (loadLengthReg space) (BitVec.ofNat 32 bytes.length)]

/-- `RUN` that meets `PHASE = RUNNING` `n` times (R99): a status read before each `STEP` and one that ends it. -/
def scriptRun : Nat → List Turn
  | 0 => [.rd 1]
  | n + 1 => .rd 1 :: scriptCmd .step :: scriptRun n

/-- `WAITDONE` that polls `n` times (R99). -/
def scriptWaitDone (n : Nat) : List Turn := List.replicate n (.rd 1)

/-- `RESULTSTR` whose `RESULT_LEN` read gives `n` (R99). -/
def scriptResultStr (n : Nat) : List Turn := .rd 13 :: (List.range n).map fun k => .rdb .result k

end Sys2Proof.Machine
end

