-- ==== Sys2Proof/Safety.lean ====
section
/-! DEFINITION. The terms claims are stated in: the admission and rejection tables of the spec (30_encoding.md R100, 60_exceptions.md R221, R223), the reference computation of a derivation (43_engine_run.md R197), the invariant of the machine (10_state.md R30, R47), runs of commands, and PBKDF2 of RFC 2898 on bytes. None of these is used by the machine. -/

namespace Sys2Proof.Machine

open Sys2Proof

/-- The phase admission table (R100), row by row. -/
def admitted : Instr → Phase → Bool
  | .init, .unconf => true
  | .init, .idle => true
  | .init, .running => false
  | .init, .done => true
  | .start, .unconf => false
  | .start, .idle => true
  | .start, .running => false
  | .start, .done => false
  | .step, .unconf => false
  | .step, .idle => false
  | .step, .running => true
  | .step, .done => false
  | .abort, .unconf => false
  | .abort, .idle => false
  | .abort, .running => true
  | .abort, .done => false
  | .pack, _ => true
  | .unpack, _ => true

/-- The `BAD_PARAM` causes of R221. -/
def badParamCause : Instr → State → Bool
  | .init, s => s.inputs.iterCount == 0 || s.inputs.dkLen == 0
  | .start, _ => false
  | .step, _ => false
  | .abort, _ => false
  | .pack, _ => false
  | .unpack, _ => false

/-- A length exceeds a capacity (an unbounded capacity is never exceeded). -/
def exceeds (n : Nat) : Option Nat → Bool
  | none => false
  | some cap => decide (cap < n)

/-- The `BAD_LENGTH` causes of R221. -/
def badLengthCause : Instr → State → Bool
  | .init, s => exceeds s.inputs.pwLen.toNat s.params.pwMax || exceeds s.inputs.saltLen.toNat s.params.saltMax ||
      exceeds s.inputs.dkLen.toNat s.params.dkMax
  | .start, _ => false
  | .step, _ => false
  | .abort, _ => false
  | .pack, s => exceeds s.codec.cbLen.toNat s.params.cbMax
  | .unpack, s => s.codec.cwBits % 8 != 0 || exceeds (s.codec.cwBits / 8) s.params.cbMax

/-- The outcome code of a command (R221), the first cause in the order of R223. -/
def outcomeCode (i : Instr) (s : State) : ErrCode :=
  if admitted i s.engine.phase = false then .badPhase
  else if badParamCause i s then .badParam
  else if badLengthCause i s then .badLength
  else .ok

/-- `U_{j+1}(i)` of block `i` (R197): the chain of PRF outputs, `U_1` first. -/
def uRef (mask : IdxMask) (e : Engine) (i : Word) : Nat → Digest
  | 0 => firstU mask e i
  | j + 1 => nextU e (uRef mask e i j)

/-- `U_1(i) xor ... xor U_j(i)` (R197, R47 (iv)); all-zero for `j = 0`. -/
def tRef (mask : IdxMask) (e : Engine) (i : Word) : Nat → Digest
  | 0 => Digest.zero
  | j + 1 => (tRef mask e i j).xor (uRef mask e i j)

/-- `bhex(T_1) ++ ... ++ bhex(T_n)` (R197). -/
def blocksHex (mask : IdxMask) (e : Engine) (n : Nat) : List Byte :=
  (List.range n).flatMap fun k => bhex (tRef mask e (BitVec.ofNat 32 (k + 1)) e.c.toNat).words

/-- What every constructed engine satisfies (R47 (i), R36, R161). -/
structure Constructed (p : Params) (e : Engine) : Prop where
  cPos : 1 ≤ e.c.toNat
  dkPos : 1 ≤ e.dkLen.toNat
  dkFits : fits p.dkMax e.dkLen.toNat = true
  blocksEq : e.blocks.toNat = divUp e.dkLen.toNat 20
  saltFits : fits p.saltMax e.saltL.length = true

/-- The ranges of the sequencing state and the values of `RESULT_LEN`, `ELAPSED`, `T`, `U` in each phase (R30, R47, R199, R270). -/
def phaseInv (p : Params) (e : Engine) : Prop :=
  match e.phase with
  | .unconf => e.blocks = 0 ∧ e.blk = 0 ∧ e.iter = 0 ∧ e.resultLen = 0 ∧ e.elapsed = 0 ∧ e.c = 0 ∧ e.dkLen = 0 ∧ e.saltL = []
  | .idle => Constructed p e ∧ e.blk = 1 ∧ e.iter = 0 ∧ e.t = Digest.zero ∧ e.resultLen = 0 ∧ e.elapsed = 0
  | .running => Constructed p e ∧ 1 ≤ e.blk.toNat ∧ e.blk.toNat ≤ e.blocks.toNat ∧ e.iter.toNat < e.c.toNat ∧
      e.resultLen = 40 * (e.blk.toNat - 1) ∧ e.elapsed = 0 ∧
      e.t = tRef p.idxMask e e.blk e.iter.toNat ∧
      (e.iter ≠ 0 → e.u = uRef p.idxMask e e.blk (e.iter.toNat - 1))
  | .done => Constructed p e ∧ e.blk.toNat = e.blocks.toNat + 1 ∧ e.iter = 0 ∧ e.t = Digest.zero ∧
      e.resultLen = 2 * e.dkLen.toNat ∧ e.u = uRef p.idxMask e e.blocks (e.c.toNat - 1)

/-- The valid part of `RESULT` is what the reference computes (R43, R197): the hex of the completed blocks, truncated. -/
def resultInv (p : Params) (e : Engine) : Prop :=
  (List.range e.resultLen).map e.result.lookup =
    ((blocksHex p.idxMask e e.blocks.toNat).take e.resultLen).map some

/-- A memory is in canonical form and lists no index at or beyond the size of its space (R78). -/
def memoryInv {α : Type} (size : Option Nat) (m : Memory α) : Prop :=
  m.wf ∧ ∀ x ∈ m, inSpace size x.1 = true

/-- The invariant of the machine: the parameters are ones R7 allows, every memory is canonical and within its space,
`CW_BITS` never asks for more bytes than a 32-bit length can say (R113 (d)), and the engine is as R30, R47 say. -/
structure Inv (s : State) : Prop where
  params : s.params.wellFormed = true
  pw : memoryInv s.params.pwMax s.inputs.pw
  salt : memoryInv s.params.saltMax s.inputs.salt
  result : memoryInv (byteSize s.params .result) s.engine.result
  cb : memoryInv s.params.cbMax s.codec.cb
  cw : memoryInv (cwSize s.params) s.codec.cw
  cwBits : s.codec.cwBits ≤ 8 * (2 ^ 32 - 1)
  phase : phaseInv s.params s.engine
  resultPrefix : resultInv s.params s.engine

/-- Commands issued one after the other with nothing between them. -/
def runCommands : List Instr → State → Host.Outcome State Fault Refusal
  | [], s => .next s
  | i :: is, s =>
    match exec i s with
    | .next t => runCommands is t
    | .fault r => .fault r
    | .refused r => .refused r

/-- `n` steps of the machine, one after the other. -/
def runSteps : Nat → State → Host.Outcome State Fault Refusal
  | 0, s => .next s
  | n + 1, s =>
    match step s with
    | .next t => runSteps n t
    | .fault r => .fault r
    | .refused r => .refused r

/-- How many chunk transitions a derivation takes (R192): `BLOCKS * ceil(C/IPC)`. -/
def chunkCount (p : Params) (e : Engine) : Nat := e.blocks.toNat * divUp e.c.toNat p.ipc

/-- The `Progress` events of one whole block (R192, R187): after chunk `q+1` the count is `min((q+1)*IPC, C)`. -/
def blockProgress (p : Params) (e : Engine) (i : Nat) : List Event :=
  (List.range (divUp e.c.toNat p.ipc)).map fun q =>
    .progress (BitVec.ofNat 32 i) (BitVec.ofNat 32 (min ((q + 1) * p.ipc) e.c.toNat))

/-- The `Progress` events of a whole derivation, block 1 first (R192). -/
def derivationProgress (p : Params) (e : Engine) : List Event :=
  (List.range e.blocks.toNat).flatMap fun k => blockProgress p e (k + 1)

/-- What one turn of the host may be without being able to move the engine: a read, or a write of anything but `CMD` (R238). -/
def isPlainAccess : Turn → Bool
  | .rd _ => true
  | .wr r _ => r != 0
  | .rdb _ _ => true
  | .wrb _ _ _ => true
  | .rdw _ => true
  | .wrw _ _ => true
  | .engine => false
  | .reset => false

/-- The bytes of a word, most significant first (R75). -/
def wordBytes (w : Word) : List Byte :=
  [w.extractLsb' 24 8, w.extractLsb' 16 8, w.extractLsb' 8 8, w.extractLsb' 0 8]

/-- The 20 bytes of a digest, most significant first (R133). -/
def digestBytes (d : Digest) : List Byte := d.words.flatMap wordBytes

/-- SHA-1 on bytes: `H(x)` of R140. -/
def hashBytes (x : List Byte) : List Byte := digestBytes (sha1 (bpack8 x) (8 * x.length))

/-- The 64-byte HMAC key of a password: hashed when longer than 64 bytes, zero-padded (R140, 93 G2). -/
def hmacKeyBytes (pw : List Byte) : List Byte :=
  let k := if 64 < pw.length then hashBytes pw else pw
  k ++ List.replicate (64 - k.length) 0

/-- HMAC-SHA1 on bytes (R140, 93 G2). -/
def hmacBytes (pw x : List Byte) : List Byte :=
  let kb := hmacKeyBytes pw
  hashBytes (kb.map (· ^^^ 0x5C) ++ hashBytes (kb.map (· ^^^ 0x36) ++ x))

/-- Byte-wise XOR of two byte strings. -/
def xorBytes (a b : List Byte) : List Byte := List.zipWith (· ^^^ ·) a b

/-- `INT(i)` of RFC 2898: four bytes, most significant first (93 G6). -/
def intBytes (i : Nat) : List Byte := wordBytes (BitVec.ofNat 32 i)

/-- RFC 2898's `U_{j+1}` of block `i`, on bytes. -/
def pbkdf2U (pw salt : List Byte) (i : Nat) : Nat → List Byte
  | 0 => hmacBytes pw (salt ++ intBytes i)
  | j + 1 => hmacBytes pw (pbkdf2U pw salt i j)

/-- RFC 2898's `F`: `U_1 xor ... xor U_{c+1}`. -/
def pbkdf2F (pw salt : List Byte) (i : Nat) : Nat → List Byte
  | 0 => pbkdf2U pw salt i 0
  | c + 1 => xorBytes (pbkdf2F pw salt i c) (pbkdf2U pw salt i (c + 1))

/-- PBKDF2-HMAC-SHA1 of RFC 2898 (R197), `c >= 1`: the first `dkLen` bytes of `T_1 ++ T_2 ++ ...`. -/
def pbkdf2 (pw salt : List Byte) (c dkLen : Nat) : List Byte :=
  ((List.range (divUp dkLen 20)).flatMap fun k => pbkdf2F pw salt (k + 1) (c - 1)).take dkLen

/-- Lowercase hex of bytes, high nibble first (R132). -/
def bytesHex (b : List Byte) : List Byte :=
  b.flatMap fun x => [hexDigit (x.extractLsb' 4 4), hexDigit (x.extractLsb' 0 4)]

end Sys2Proof.Machine
end

