-- ==== Sys2Proof/Certificates/Slice0/Obligations.lean ====
section
/-! DEFINITION. The statements for the provers, each formalising rules of spec/. They range over every State, so over every parameter set and every free value. -/

open Sys2Proof Sys2Proof.Machine

/-! ### Encoding and decoding -/

/-- R93, R94 (sanity): the six command words decode to their commands, and some illegal words do not decode. -/
def Obligations.DecodeOfSampleWords : Prop :=
  decode 0x00000001 = .ok .init ∧ decode 0x00000002 = .ok .start ∧ decode 0x00000003 = .ok .step ∧
  decode 0x00000004 = .ok .abort ∧ decode 0x00000008 = .ok .pack ∧ decode 0x00000009 = .ok .unpack ∧
  decode 0x00000000 = .error (.reservedOpcode 0) ∧ decode 0x00000005 = .error (.reservedOpcode 5) ∧
  decode 0x0000000A = .error (.reservedOpcode 10) ∧
  decode 0x00000011 = .error (.reservedBitsSet 1) ∧ decode 0x80000002 = .error (.reservedBitsSet 0x8000000) ∧
  decode 0xFFFFFFFF = .error (.reservedBitsSet 0xFFFFFFF)

/-- R93, R94: decoding and encoding agree in both directions, for every word and every command. -/
def Obligations.DecodeAndEncodeAgree : Prop :=
  ∀ (w : Word) (i : Instr), decode w = .ok i ↔ encode i = w

/-- R101: the decoder written from the table alone is the decoder of R94. -/
def Obligations.TableDecoderAgreesWithDecoder : Prop :=
  ∀ w : Word, decodeByTable w = (match decode w with | .ok i => some i | .error _ => none)

/-- R95: a word with a non-zero `RSV` or a reserved `OP` is rejected with `ILLEGAL_CMD` and changes nothing else, and
there are `2^32 - 6` such words. -/
def Obligations.IllegalWordsAreRejected : Prop :=
  (∀ (s : State) (w : Word) (rest : List Turn), s.pending = .wr 0 w :: rest →
    (rsvField w ≠ 0 ∨ opField w ∈ ([0x0, 0x5, 0x6, 0x7, 0xA, 0xB, 0xC, 0xD, 0xE, 0xF] : List (BitVec 4))) →
    step s = .next { s with pending := rest,
                            ctrl := { s.ctrl with err := .illegalCmd, irqStatus := s.ctrl.irqStatus ||| 0b100#3 } }) ∧
  Nat.card { w : Word // rsvField w ≠ 0 ∨
    opField w ∈ ([0x0, 0x5, 0x6, 0x7, 0xA, 0xB, 0xC, 0xD, 0xE, 0xF] : List (BitVec 4)) } = 2 ^ 32 - 6

/-- R22: a write to `CMD` that comes next runs the command it encodes, to its end, as this one step; `CMD` stores nothing, and
a read of it gives 0 and has no effect (the 0 goes into the model's record of replies, log 12). -/
def Obligations.CommandWriteRunsItsCommand : Prop :=
  (∀ (s : State) (w : Word) (rest : List Turn), s.pending = .wr 0 w :: rest →
    step s = (match decode w with
      | .ok i => exec i { s with pending := rest }
      | .error _ => .next (reject .illegalCmd { s with pending := rest })) ∧
    (∀ i, decode w = .ok i → step s = exec i { s with pending := rest })) ∧
  (∀ (s : State) (rest : List Turn), s.pending = .rd 0 :: rest →
    step s = .next { s with pending := rest, replies := s.replies ++ [.reg 0 0] })

/-- A step always answers a next state, never a fault and never a refusal (R220, R241; log 19). It does not say that the
state moves: with nothing pending and the engine's own step disabled, where R241 gives the engine no step, the state answered
is the same one, which is the model's choice (log 2). -/
def Obligations.EveryStepAnswers : Prop := ∀ s : State, ∃ t, step s = .next t

/-- The model's choice (log 2, log 3), on R185: with nothing pending the engine's own step runs if it is enabled, and
otherwise the block rests. -/
def Obligations.RestsWhenNothingIsPending : Prop :=
  ∀ s : State, s.pending = [] →
    (s.ctrl.auto = true → s.engine.phase = .running → step s = .next (chunk s)) ∧
    (s.ctrl.auto = false ∨ s.engine.phase ≠ .running → step s = .next s)

/-! ### Admission and rejection -/

/-- R100: a command is rejected with `BAD_PHASE` exactly where the admission table says so. -/
def Obligations.PhaseAdmissionFollowsTheTable : Prop :=
  ∀ (i : Instr) (s : State), ∃ t, exec i s = .next t ∧
    (t.ctrl.err = .badPhase ↔ admitted i s.engine.phase = false) ∧
    (admitted i s.engine.phase = false → t = reject .badPhase s)

/-- R223: exactly one code is reported, the first cause in the order `BAD_PHASE`, `BAD_PARAM`, `BAD_LENGTH`
(`ILLEGAL_CMD`, the first of all, is the decoder's: no command runs then). -/
def Obligations.RejectionPriority : Prop :=
  (∀ (i : Instr) (s : State), ∃ t, exec i s = .next t ∧ t.ctrl.err = outcomeCode i s) ∧
  (∀ (s : State) (w : Word) (rest : List Turn) (e : DecodeError), s.pending = .wr 0 w :: rest → decode w = .error e →
    ∃ t, step s = .next t ∧ t.ctrl.err = .illegalCmd)

/-- R224: the rejections each command can raise. -/
def Obligations.RejectionCodesOfEachCommand : Prop :=
  ∀ s : State,
    (∃ t, exec .init s = .next t ∧ t.ctrl.err ∈ [ErrCode.ok, .badPhase, .badParam, .badLength]) ∧
    (∃ t, exec .start s = .next t ∧ t.ctrl.err ∈ [ErrCode.ok, .badPhase]) ∧
    (∃ t, exec .step s = .next t ∧ t.ctrl.err ∈ [ErrCode.ok, .badPhase]) ∧
    (∃ t, exec .abort s = .next t ∧ t.ctrl.err ∈ [ErrCode.ok, .badPhase]) ∧
    (∃ t, exec .pack s = .next t ∧ t.ctrl.err ∈ [ErrCode.ok, .badLength]) ∧
    (∃ t, exec .unpack s = .next t ∧ t.ctrl.err ∈ [ErrCode.ok, .badLength])

/-- R222: a rejected command, an illegal one included, changes `ERR` and `IRQ_STATUS.ERR` and nothing else, and the host
sees it in `ERR` and, if `IRQ_ENABLE.ERR = 1`, on `irq`; an accepted one leaves `ERR = OK` and does not touch
`IRQ_STATUS.ERR`. -/
def Obligations.RejectionChangesNothingElse : Prop :=
  (∀ (i : Instr) (s : State),
    (outcomeCode i s ≠ .ok → ∃ t, exec i s = .next t ∧
      t = { s with ctrl := { s.ctrl with err := outcomeCode i s, irqStatus := s.ctrl.irqStatus ||| 0b100#3 } } ∧
      readReg t 3 ≠ 0 ∧ (s.ctrl.irqEnable.getLsbD 2 = true → irqLine t = true)) ∧
    (outcomeCode i s = .ok →
      ∃ t, exec i s = .next t ∧ t.ctrl.err = .ok ∧ t.ctrl.irqStatus.getLsbD 2 = s.ctrl.irqStatus.getLsbD 2)) ∧
  (∀ (s : State) (w : Word) (rest : List Turn) (e : DecodeError), s.pending = .wr 0 w :: rest → decode w = .error e →
    ∃ t, step s = .next t ∧
      t = { s with pending := rest,
                   ctrl := { s.ctrl with err := .illegalCmd, irqStatus := s.ctrl.irqStatus ||| 0b100#3 } } ∧
      readReg t 3 ≠ 0 ∧ (s.ctrl.irqEnable.getLsbD 2 = true → irqLine t = true))

/-! ### Construction -/

/-- R161 with R163 to R166: `INIT`'s checks in order, and when they pass everything it writes; all else stays. The pads
are given word by word: `P >= 65` is hashed, missing key words count as 0. -/
def Obligations.InitConstructsTheEngine : Prop :=
  decode 0x00000001 = .ok .init ∧ ∀ s : State,
    (s.engine.phase = .running → exec .init s = .next (reject .badPhase s)) ∧
    (s.engine.phase ≠ .running → (s.inputs.iterCount = 0 ∨ s.inputs.dkLen = 0) →
      exec .init s = .next (reject .badParam s)) ∧
    (s.engine.phase ≠ .running → s.inputs.iterCount ≠ 0 → s.inputs.dkLen ≠ 0 →
      (exceeds s.inputs.pwLen.toNat s.params.pwMax = true ∨ exceeds s.inputs.saltLen.toNat s.params.saltMax = true ∨
        exceeds s.inputs.dkLen.toNat s.params.dkMax = true) →
      exec .init s = .next (reject .badLength s)) ∧
    (s.engine.phase ≠ .running → s.inputs.iterCount ≠ 0 → s.inputs.dkLen ≠ 0 →
      exceeds s.inputs.pwLen.toNat s.params.pwMax = false → exceeds s.inputs.saltLen.toNat s.params.saltMax = false →
      exceeds s.inputs.dkLen.toNat s.params.dkMax = false →
      ∃ ipad opad : Vector Word 16,
        exec .init s = .next { s with
          ctrl := { s.ctrl with err := .ok },
          engine := { s.engine with
            ipad := ipad, opad := opad,
            c := s.inputs.iterCount, dkLen := s.inputs.dkLen,
            saltL := readBytes s .salt 0 s.inputs.saltLen.toNat,
            blocks := BitVec.ofNat 32 (divUp s.inputs.dkLen.toNat 20),
            blk := 1, iter := 0, t := ⟨0, 0, 0, 0, 0⟩, resultLen := 0, elapsed := 0, phase := .idle } } ∧
        ∀ k : Nat, ∀ h : k < 16,
          let pw := readBytes s .pw 0 s.inputs.pwLen.toNat
          let key := if 65 ≤ s.inputs.pwLen.toNat then (hashPort (bpack8 pw) (8 * pw.length)).words else bpack8 pw
          ipad[k] = key.getD k 0 ^^^ 0x36363636 ∧ opad[k] = key.getD k 0 ^^^ 0x5C5C5C5C)

/-- R163, R167 (e): a password of at most 64 bytes is used as it is; one of 65 bytes or more gives the same key words as
its own 20 digest bytes supplied as the password. -/
def Obligations.KeyShorteningBoundary : Prop :=
  ∀ pw : List Byte,
    (pw.length ≤ 64 → keyWords pw = bpack8 pw) ∧
    (65 ≤ pw.length → keyWords pw = keyWords (digestBytes (hashPort (bpack8 pw) (8 * pw.length))) ∧
      (keyWords pw).length = 5)

/-! ### The run -/

/-- R181: `START` in `IDLE` takes the time (a draw, log 7), enters `RUNNING` and does nothing else; the fresh derivation
state holds already; elsewhere it is rejected; directly after an `ABORT` it is accepted and begins from the start. -/
def Obligations.StartBeginsTheDerivation : Prop :=
  decode 0x00000002 = .ok .start ∧ ∀ s : State,
    (s.engine.phase = .idle → exec .start s = .next { s with
      ctrl := { s.ctrl with err := .ok },
      engine := { s.engine with t0 := Config.now s.env s.nowDraws, phase := .running },
      nowDraws := s.nowDraws + 1 }) ∧
    (s.engine.phase = .idle → Inv s →
      s.engine.blk = 1 ∧ s.engine.iter = 0 ∧ s.engine.t = ⟨0, 0, 0, 0, 0⟩ ∧ s.engine.resultLen = 0) ∧
    (s.engine.phase ≠ .idle → exec .start s = .next (reject .badPhase s)) ∧
    (s.engine.phase = .running → runCommands [.abort, .start] s = .next { s with
      ctrl := { s.ctrl with err := .ok },
      engine := { s.engine with
        blk := 1, iter := 0, t := ⟨0, 0, 0, 0, 0⟩, resultLen := 0, t0 := Config.now s.env s.nowDraws },
      nowDraws := s.nowDraws + 1 })

/-- R182: `STEP` in `RUNNING` runs one chunk and leaves `ERR = OK`, whatever `CTRL.AUTO` is; elsewhere it is rejected. -/
def Obligations.StepRunsOneChunk : Prop :=
  decode 0x00000003 = .ok .step ∧ ∀ s : State,
    (s.engine.phase = .running →
      exec .step s = .next { chunk s with ctrl := { (chunk s).ctrl with err := .ok } }) ∧
    (s.engine.phase ≠ .running → exec .step s = .next (reject .badPhase s))

/-- R185: the engine's own step is the same chunk and does not touch `ERR`; with `AUTO = 0` or outside `RUNNING` the engine
has no step. -/
def Obligations.EnginesOwnStepIsTheChunk : Prop :=
  ∀ (s : State) (rest : List Turn), s.pending = .engine :: rest →
    (s.ctrl.auto = true → s.engine.phase = .running →
      ∃ t, step s = .next t ∧ t.ctrl.err = s.ctrl.err ∧
        exec .step { s with pending := rest } = .next { t with ctrl := { t.ctrl with err := .ok } }) ∧
    ((s.ctrl.auto = false ∨ s.engine.phase ≠ .running) → step s = .next { s with pending := rest })

/-- R186 to R191, the chunk rows of R196: where a `STEP` leaves the sequencing state, the result, the sticky bits and the
event stream, in each of the three cases. -/
def Obligations.StepMovesTheSequencingState : Prop :=
  ∀ s : State, Inv s → s.engine.phase = .running →
    let e := s.engine
    let n := min s.params.ipc (e.c.toNat - e.iter.toNat)
    1 ≤ n ∧ ∃ t, exec .step s = .next t ∧
      (e.iter.toNat + n < e.c.toNat →
        t.engine.phase = .running ∧ t.engine.blk = e.blk ∧ t.engine.iter.toNat = e.iter.toNat + n ∧
        t.engine.t = tRef s.params.idxMask e e.blk (e.iter.toNat + n) ∧
        t.engine.u = uRef s.params.idxMask e e.blk (e.iter.toNat + n - 1) ∧
        t.engine.resultLen = e.resultLen ∧ t.engine.result = e.result ∧ t.engine.elapsed = e.elapsed ∧
        t.ctrl.irqStatus = s.ctrl.irqStatus ||| 0b001#3 ∧ t.nowDraws = s.nowDraws ∧
        t.events = s.events ++ [.progress e.blk (BitVec.ofNat 32 (e.iter.toNat + n))]) ∧
      (e.iter.toNat + n = e.c.toNat → e.blk ≠ e.blocks →
        t.engine.phase = .running ∧ t.engine.blk = e.blk + 1 ∧ t.engine.iter = 0 ∧ t.engine.t = ⟨0, 0, 0, 0, 0⟩ ∧
        t.engine.u = uRef s.params.idxMask e e.blk (e.c.toNat - 1) ∧
        t.engine.resultLen = e.resultLen + 40 ∧
        t.engine.result = e.result.storeSeq e.resultLen (bhex (tRef s.params.idxMask e e.blk e.c.toNat).words) ∧
        t.engine.elapsed = e.elapsed ∧
        t.ctrl.irqStatus = s.ctrl.irqStatus ||| 0b001#3 ∧ t.nowDraws = s.nowDraws ∧
        t.events = s.events ++ [.progress e.blk e.c]) ∧
      (e.iter.toNat + n = e.c.toNat → e.blk = e.blocks →
        t.engine.phase = .done ∧ t.engine.blk = e.blocks + 1 ∧ t.engine.iter = 0 ∧ t.engine.t = ⟨0, 0, 0, 0, 0⟩ ∧
        t.engine.u = uRef s.params.idxMask e e.blk (e.c.toNat - 1) ∧
        t.engine.resultLen = 2 * e.dkLen.toNat ∧
        t.engine.result = e.result.storeSeq e.resultLen
          ((bhex (tRef s.params.idxMask e e.blk e.c.toNat).words).take (2 * e.dkLen.toNat - 40 * (e.blocks.toNat - 1))) ∧
        t.engine.elapsed = Config.now s.env s.nowDraws - e.t0 ∧ t.nowDraws = s.nowDraws + 1 ∧
        t.ctrl.irqStatus = s.ctrl.irqStatus ||| 0b011#3 ∧
        t.events = s.events ++ [.progress e.blk e.c,
          .done ((blocksHex s.params.idxMask e e.blocks.toNat).take (2 * e.dkLen.toNat)) t.engine.elapsed])

/-- R186, R188 (frame): what a chunk writes and nothing else. The characters a completed block appends stand from
`RESULT_LEN` on; every other byte of `RESULT` reads as before, and so does every byte of every other buffer. -/
def Obligations.ChunkFrame : Prop :=
  ∀ s : State, s.engine.phase = .running → memoryInv (byteSize s.params .result) s.engine.result →
    ∃ t, exec .step s = .next t ∧
      t = { s with
        ctrl := { s.ctrl with err := .ok, irqStatus := t.ctrl.irqStatus },
        engine := { s.engine with
          u := t.engine.u, t := t.engine.t, iter := t.engine.iter, blk := t.engine.blk,
          result := t.engine.result, resultLen := t.engine.resultLen,
          elapsed := t.engine.elapsed, phase := t.engine.phase },
        events := t.events, nowDraws := t.nowDraws } ∧
      s.engine.resultLen ≤ t.engine.resultLen ∧
      (∀ a, ¬ (s.engine.resultLen ≤ a ∧ a < t.engine.resultLen) → readByte t .result a = readByte s .result a) ∧
      (∀ space a, space ≠ .result → readByte t space a = readByte s space a) ∧
      (∀ a, readCw t a = readCw s a)

/-- R193: `ABORT` in `RUNNING` returns to the state construction left and emits nothing; elsewhere it is rejected. -/
def Obligations.AbortReturnsToIdle : Prop :=
  decode 0x00000004 = .ok .abort ∧ ∀ s : State,
    (s.engine.phase = .running → exec .abort s = .next { s with
      ctrl := { s.ctrl with err := .ok },
      engine := { s.engine with blk := 1, iter := 0, t := ⟨0, 0, 0, 0, 0⟩, resultLen := 0, phase := .idle } }) ∧
    (s.engine.phase ≠ .running → exec .abort s = .next (reject .badPhase s))

/-- R268: a character of `RESULT` below `RESULT_LEN` is never changed by any step but reset. -/
def Obligations.WrittenResultNeverChanges : Prop :=
  ∀ s t : State, Inv s → step s = .next t → s.pending.head? ≠ some .reset →
    ∀ a, a < s.engine.resultLen → readByte t .result a = readByte s .result a

/-- R194: the fraction of a chunk's `Progress` exceeds the one before it, lies in `(0, 1]`, is 1 exactly when the
derivation completes, and is what `BLK` and `ITER` give when read afterwards. -/
def Obligations.ProgressIsStrictlyIncreasing : Prop :=
  ∀ s : State, Inv s → s.engine.phase = .running → ∃ t blk iter more, exec .step s = .next t ∧
    t.events = s.events ++ .progress blk iter :: more ∧
    progressFraction s.engine s.engine.blk s.engine.iter < progressFraction s.engine blk iter ∧
    0 < progressFraction s.engine blk iter ∧ progressFraction s.engine blk iter ≤ 1 ∧
    (progressFraction s.engine blk iter = 1 ↔ t.engine.phase = .done) ∧
    progressFraction t.engine t.engine.blk t.engine.iter = progressFraction s.engine blk iter

/-- R195: the counters never pass their bounds, and with `DK_MAX <= 2^31 - 1` register `RESULT_LEN` shows the whole number. -/
def Obligations.CountersStayInRange : Prop :=
  ∀ s : State, Inv s →
    s.engine.iter.toNat ≤ s.engine.c.toNat ∧
    s.engine.blk.toNat ≤ s.engine.blocks.toNat + 1 ∧ s.engine.blocks.toNat + 1 ≤ 214748366 ∧
    s.engine.resultLen ≤ 2 * s.engine.dkLen.toNat ∧ 2 * s.engine.dkLen.toNat ≤ 2 ^ 33 - 2 ∧
    (∀ m, s.params.dkMax = some m → m ≤ 2 ^ 31 - 1 → (readReg s 13).toNat = s.engine.resultLen)

/-- R199: in `DONE` the key stands in `RESULT`, `START`, `STEP` and `ABORT` are rejected and the engine's own step is off. -/
def Obligations.DoneIsTerminal : Prop :=
  ∀ s : State, Inv s → s.engine.phase = .done →
    s.engine.blk = s.engine.blocks + 1 ∧ s.engine.iter = 0 ∧ s.engine.t = ⟨0, 0, 0, 0, 0⟩ ∧
    s.engine.resultLen = 2 * s.engine.dkLen.toNat ∧
    readBytes s .result 0 (2 * s.engine.dkLen.toNat) =
      (blocksHex s.params.idxMask s.engine s.engine.blocks.toNat).take (2 * s.engine.dkLen.toNat) ∧
    s.engine.u = uRef s.params.idxMask s.engine s.engine.blocks (s.engine.c.toNat - 1) ∧
    exec .start s = .next (reject .badPhase s) ∧ exec .step s = .next (reject .badPhase s) ∧
    exec .abort s = .next (reject .badPhase s) ∧ engineTurn s = s

/-! ### The codec -/

/-- R112: `PACK`, byte by byte: byte `q` of word `m` is `CB[4m+q]`, 0 beyond the length; words at or beyond `ceil(n/4)` and
everything else stay. Beyond the capacity it is rejected. -/
def Obligations.PackPacksLittleEndian : Prop :=
  decode 0x00000008 = .ok .pack ∧ ∀ s : State,
    (exceeds s.codec.cbLen.toNat s.params.cbMax = true → exec .pack s = .next (reject .badLength s)) ∧
    (exceeds s.codec.cbLen.toNat s.params.cbMax = false → s.codec.cw.wf →
      ∃ t, exec .pack s = .next t ∧
        t = { s with ctrl := { s.ctrl with err := .ok },
                     codec := { s.codec with cw := t.codec.cw, cwBits := 8 * s.codec.cbLen.toNat } } ∧
        (∀ m q, m < divUp s.codec.cbLen.toNat 4 → q < 4 →
          (readCw t m).extractLsb' (8 * q) 8 =
            if 4 * m + q < s.codec.cbLen.toNat then readByte s .cb (4 * m + q) else 0) ∧
        (∀ m, divUp s.codec.cbLen.toNat 4 ≤ m → readCw t m = readCw s m))

/-- R115: `UNPACK`, byte by byte: byte `k` is bits `8*(k mod 4)+7 : 8*(k mod 4)` of word `k div 4`; bytes at or beyond `L/8`
and everything else stay. A length that is no whole number of bytes, or too long, is rejected. -/
def Obligations.UnpackUnpacksLittleEndian : Prop :=
  decode 0x00000009 = .ok .unpack ∧ ∀ s : State,
    (s.codec.cwBits % 8 ≠ 0 → exec .unpack s = .next (reject .badLength s)) ∧
    (exceeds (s.codec.cwBits / 8) s.params.cbMax = true → exec .unpack s = .next (reject .badLength s)) ∧
    (s.codec.cwBits % 8 = 0 → exceeds (s.codec.cwBits / 8) s.params.cbMax = false →
      s.codec.cwBits ≤ 8 * (2 ^ 32 - 1) → s.codec.cb.wf →
      ∃ t, exec .unpack s = .next t ∧
        t = { s with ctrl := { s.ctrl with err := .ok },
                     codec := { s.codec with cb := t.codec.cb, cbLen := t.codec.cbLen } } ∧
        t.codec.cbLen.toNat = s.codec.cwBits / 8 ∧
        (∀ k, k < s.codec.cwBits / 8 → readByte t .cb k = (readCw s (k / 4)).extractLsb' (8 * (k % 4)) 8) ∧
        (∀ k, s.codec.cwBits / 8 ≤ k → readByte t .cb k = readByte s .cb k))

/-- R116: unpacking a packed byte sequence under its bit length gives it back, for every length. -/
def Obligations.UnpackOfPackIsIdentity : Prop :=
  ∀ b : List Byte, leunpack (lepack b) (8 * b.length) = b

/-- R116, the converse: packing what was unpacked gives the words back exactly when the padding bits of the last word are 0. -/
def Obligations.PackOfUnpackLosesOnlyPadding : Prop :=
  ∀ (w : List Word) (bits : Nat), bits % 8 = 0 → bits ≤ 32 * w.length →
    (lepack (leunpack w bits) = w.take (divUp bits 32) ↔
      ∀ k, bits ≤ 8 * k → k < 4 * divUp bits 32 → (w.getD (k / 4) 0).extractLsb' (8 * (k % 4)) 8 = 0#8)

/-- R116, at command level: `PACK` followed by `UNPACK` leaves every byte of `CB`, and `CB_LEN`, as they were. -/
def Obligations.PackThenUnpackRestoresTheBytes : Prop :=
  ∀ s : State, exceeds s.codec.cbLen.toNat s.params.cbMax = false → s.codec.cb.wf → s.codec.cw.wf →
    ∃ t, runCommands [.pack, .unpack] s = .next t ∧ t.ctrl.err = .ok ∧ t.codec.cbLen = s.codec.cbLen ∧
      ∀ a, readByte t .cb a = readByte s .cb a

/-- R117, R275: codec commands leave engine, inputs and events alone and depend on no part of them; engine commands and
the chunk neither change the codec nor depend on it. -/
def Obligations.CodecAndEngineDoNotInteract : Prop :=
  (∀ (i : Instr) (s : State), i = .pack ∨ i = .unpack → ∃ t, exec i s = .next t ∧
    t.engine = s.engine ∧ t.inputs = s.inputs ∧ t.events = s.events ∧ t.nowDraws = s.nowDraws ∧
    t.ctrl.irqStatus.getLsbD 0 = s.ctrl.irqStatus.getLsbD 0 ∧ t.ctrl.irqStatus.getLsbD 1 = s.ctrl.irqStatus.getLsbD 1 ∧
    ∀ e inp, exec i { s with engine := e, inputs := inp } = .next { t with engine := e, inputs := inp }) ∧
  (∀ (i : Instr) (s : State), i ≠ .pack → i ≠ .unpack → ∃ t, exec i s = .next t ∧ t.codec = s.codec ∧
    ∀ c, exec i { s with codec := c } = .next { t with codec := c }) ∧
  (∀ (s : State) (c : Codec), (chunk s).codec = s.codec ∧ chunk { s with codec := c } = { chunk s with codec := c })

/-! ### The hash-specific packing, the index and the PRF -/

/-- R131: the two packers are word-by-word byte reversals of each other, and packing splits at multiples of four bytes. -/
def Obligations.PackersAreByteReversals : Prop :=
  (∀ b : List Byte, (bpack8 b).length = (lepack b).length ∧
    ∀ m q, m < (lepack b).length → q < 4 →
      ((bpack8 b).getD m 0).extractLsb' (8 * q) 8 = ((lepack b).getD m 0).extractLsb' (8 * (3 - q)) 8) ∧
  (∀ a b : List Byte, a.length % 4 = 0 → bpack8 (a ++ b) = bpack8 a ++ bpack8 b)

/-- R130: where each character lands, for 8 and for 16 bits per character, most significant first, uncovered bits 0. -/
def Obligations.BigEndianPackerLayout : Prop :=
  (∀ s : List Byte, (bpack8 s).length = divUp (s.length * 8) 32 ∧
    ∀ k, k < 4 * (bpack8 s).length →
      ((bpack8 s).getD (k / 4) 0).extractLsb' (24 - 8 * (k % 4)) 8 = s.getD k 0) ∧
  (∀ s : List (BitVec 16), (bpack16 s).length = divUp (s.length * 16) 32 ∧
    ∀ k, k < 2 * (bpack16 s).length →
      ((bpack16 s).getD (k / 2) 0).extractLsb' (16 - 16 * (k % 2)) 16 = s.getD k 0)

/-- R132: eight lowercase hex characters per word, most significant nibble first. -/
def Obligations.HexFormatterDigits : Prop :=
  ∀ w : List Word, (bhex w).length = 8 * w.length ∧
    ∀ q r, q < w.length → r < 8 →
      (bhex w)[8 * q + r]? = some (
        let v := ((w.getD q 0).extractLsb' (28 - 4 * r) 4).toNat
        if v ≤ 9 then BitVec.ofNat 8 (0x30 + v) else BitVec.ofNat 8 (0x61 + (v - 10)))

/-- R133: the first `2m` hex characters of a digest are the hex of its first `m` bytes. -/
def Obligations.TruncatedHexIsTruncatedBytes : Prop :=
  ∀ (d : Digest) (m : Nat), m ≤ 20 → (bhex d.words).length = 40 ∧
    (bhex d.words).take (2 * m) = bytesHex ((digestBytes d).take m)

/-- R134, R135: the index bytes under each mask; the masks agree exactly when `i and 0xF0F0F0F0 = 0`; under `0xFF` the
encoding is injective; under `0x0F` the indices 16 and 32 collide. -/
def Obligations.BlockIndexUnderBothMasks : Prop :=
  (∀ i : Word, idx4 .full i = wordBytes i ∧ idx4 .nibble i = (wordBytes i).map (· &&& 0x0F)) ∧
  (∀ i : Word, idx4 .full i = idx4 .nibble i ↔ i &&& 0xF0F0F0F0 = 0) ∧
  (∀ i j : Word, idx4 .full i = idx4 .full j → i = j) ∧
  idx4 .nibble 16 = idx4 .nibble 32

/-- R137: every `HASH` call of the engine (R163, R138, R139) meets the three preconditions, so it is SHA-1 and the free value
of log 6 is never used. First the three shapes of arguments; then the definitions that make the calls, each equal to its form
with SHA-1 in place of the hash port: key shortening, the PRF on a packed message, the first and every other iteration. -/
def Obligations.HashCallsMeetThePreconditions : Prop :=
  (∀ pw : List Byte, hashPre (bpack8 pw) (8 * pw.length) = true) ∧
  (∀ (pad : Vector Word 16) (x : List Byte), hashPre (pad.toList ++ bpack8 x) (512 + 8 * x.length) = true) ∧
  (∀ (pad : Vector Word 16) (d : Digest), hashPre (pad.toList ++ d.words) (512 + 160) = true) ∧
  (∀ pw : List Byte, keyWords pw =
    if 16 < (bpack8 pw).length then (sha1 (bpack8 pw) (8 * pw.length)).words else bpack8 pw) ∧
  (∀ (ipad opad : Vector Word 16) (x : List Byte), hmac ipad opad (bpack8 x) (8 * x.length) =
    sha1 (opad.toList ++ (sha1 (ipad.toList ++ bpack8 x) (512 + 8 * x.length)).words) (512 + 160)) ∧
  (∀ (mask : IdxMask) (e : Engine) (i : Word), firstU mask e i =
    sha1 (e.opad.toList ++
      (sha1 (e.ipad.toList ++ bpack8 (e.saltL ++ idx4 mask i)) (512 + 8 * (e.saltL.length + 4))).words) (512 + 160)) ∧
  (∀ (e : Engine) (u : Digest), nextU e u =
    sha1 (e.opad.toList ++ (sha1 (e.ipad.toList ++ u.words) (512 + 160)).words) (512 + 160))

/-- R140: `hmac` under the pads of a password, on a packed byte message, is the HMAC of RFC 2104 on bytes. -/
def Obligations.HmacIsRfc2104OnBytes : Prop :=
  ∀ pw x : List Byte,
    digestBytes (hmac (padWords (keyWords pw) 0x36363636) (padWords (keyWords pw) 0x5C5C5C5C) (bpack8 x) (8 * x.length)) =
      hmacBytes pw x

/-! ### Registers, buffers, signals -/

/-- On R61: a register read returns the register's value with reserved bits 0, 0 for `CMD` and above 17, and changes no state
of the block (the value goes into the model's record of replies, log 12). What `IPC` shows of a parameter, and `CW_BITS` of a
length, that does not fit 32 bits is no rule of the spec: the low 32 bits are the model's choice (logs 11 and 10). -/
def Obligations.RegisterReadReturnsAndChangesNothing : Prop :=
  ∀ (s : State) (r : Nat) (rest : List Turn), s.pending = .rd r :: rest →
    ∃ v, step s = .next { s with pending := rest, replies := s.replies ++ [.reg r v] } ∧
      (r = 0 → v = 0) ∧
      (r = 1 → v = (match s.engine.phase with | .unconf => 0 | .idle => 1 | .running => 2 | .done => 3)) ∧
      (r = 2 → v = if s.ctrl.auto then 1 else 0) ∧
      (r = 3 → v = (match s.ctrl.err with
        | .ok => 0 | .illegalCmd => 1 | .badPhase => 2 | .badParam => 3 | .badLength => 4)) ∧
      (r = 4 → v.toNat = s.ctrl.irqStatus.toNat) ∧ (r = 5 → v.toNat = s.ctrl.irqEnable.toNat) ∧
      (r = 6 → v = s.inputs.iterCount) ∧ (r = 7 → v = s.inputs.dkLen) ∧ (r = 8 → v = s.inputs.pwLen) ∧
      (r = 9 → v = s.inputs.saltLen) ∧ (r = 10 → v = s.engine.blocks) ∧ (r = 11 → v = s.engine.blk) ∧
      (r = 12 → v = s.engine.iter) ∧ (r = 13 → v.toNat = s.engine.resultLen % 2 ^ 32) ∧
      (r = 14 → v = s.engine.elapsed) ∧ (r = 15 → v.toNat = s.params.ipc % 2 ^ 32) ∧
      (r = 16 → v = s.codec.cbLen) ∧ (r = 17 → v.toNat = s.codec.cwBits % 2 ^ 32) ∧ (17 < r → v = 0)

/-- R62: a write to a register, by access kind, seen through register reads: the written register takes the writable bits
(or loses the cleared ones), every other register reads as before, and no buffer, engine state or event changes; a write to
`CMD` decodes and executes the command. -/
def Obligations.RegisterWritesByAccessKind : Prop :=
  (∀ (s : State) (v : Word) (rest : List Turn), s.pending = .wr 0 v :: rest →
    (∀ i, decode v = .ok i → step s = exec i { s with pending := rest }) ∧
    (∀ e, decode v = .error e → step s = .next (reject .illegalCmd { s with pending := rest }))) ∧
  ∀ (s : State) (r : Nat) (v : Word) (rest : List Turn), s.pending = .wr r v :: rest → r ≠ 0 →
    ∃ t, step s = .next t ∧
      (r = 2 → readReg t 2 = v &&& 1) ∧ (r = 5 → readReg t 5 = v &&& 7) ∧
      (r = 4 → readReg t 4 = readReg s 4 &&& ~~~v) ∧
      (r ∈ [6, 7, 8, 9, 16, 17] → readReg t r = v) ∧
      (r ∈ [1, 3, 10, 11, 12, 13, 14, 15] ∨ 17 < r → t = { s with pending := rest }) ∧
      (∀ r', r' ≠ r → readReg t r' = readReg s r') ∧
      t.engine = s.engine ∧ t.events = s.events ∧ t.ctrl.err = s.ctrl.err ∧
      (∀ space a, readByte t space a = readByte s space a) ∧ (∀ a, readCw t a = readCw s a) ∧
      t.params = s.params ∧ t.pending = rest ∧ t.replies = s.replies

/-- R32: reserved bits of a mapped register read 0, whatever was written; registers above 17 read 0 and ignore writes. -/
def Obligations.ReservedBitsReadZero : Prop :=
  ∀ s : State,
    (∀ k, 2 ≤ k → (readReg s 1).getLsbD k = false) ∧ (∀ k, 1 ≤ k → (readReg s 2).getLsbD k = false) ∧
    (∀ k, 3 ≤ k → (readReg s 3).getLsbD k = false) ∧ (∀ k, 3 ≤ k → (readReg s 4).getLsbD k = false) ∧
    (∀ k, 3 ≤ k → (readReg s 5).getLsbD k = false) ∧
    (∀ r v, 17 < r → readReg s r = 0 ∧ writeReg s r v = s) ∧
    (∀ v, writeReg s 2 v = writeReg s 2 (v &&& 1) ∧ writeReg s 4 v = writeReg s 4 (v &&& 7) ∧
      writeReg s 5 v = writeReg s 5 (v &&& 7))

/-- R51: `irq` is 1 exactly when some bit is both pending and enabled, as the two registers read. -/
def Obligations.IrqLineIsPendingAndEnabled : Prop :=
  ∀ s : State, irqLine s = true ↔ ∃ k, k < 3 ∧ (readReg s 4).getLsbD k = true ∧ (readReg s 5).getLsbD k = true

/-- R63, R64, R66: a host byte write is seen by the next read of that byte and by no other; `RESULT` ignores it; at or beyond
the size it does nothing and a read gives 0. No register, engine state, word or event changes. -/
def Obligations.ByteWriteThenRead : Prop :=
  ∀ (s : State) (space : ByteSpace) (a : Nat) (b : Byte) (rest : List Turn),
    s.pending = .wrb space a b :: rest → (byteMem s space).wf →
    ∃ t, step s = .next t ∧
      (∀ space' a', hostReadByte t space' a' =
        if space' = space ∧ a' = a ∧ space ≠ .result ∧ inSpace (byteSize s.params space) a = true then b
        else hostReadByte s space' a') ∧
      (inSpace (byteSize s.params space) a = false → t = { s with pending := rest } ∧ hostReadByte t space a = 0) ∧
      (∀ r, readReg t r = readReg s r) ∧ (∀ a', readCw t a' = readCw s a') ∧
      t.engine = s.engine ∧ t.events = s.events ∧ t.ctrl = s.ctrl ∧ t.params = s.params ∧ t.pending = rest ∧
      t.replies = s.replies

/-- R65, R66: the same for the words of `CW`. -/
def Obligations.WordWriteThenRead : Prop :=
  ∀ (s : State) (a : Nat) (w : Word) (rest : List Turn), s.pending = .wrw a w :: rest → s.codec.cw.wf →
    ∃ t, step s = .next t ∧
      (∀ a', hostReadCw t a' = if a' = a ∧ inSpace (cwSize s.params) a = true then w else hostReadCw s a') ∧
      (inSpace (cwSize s.params) a = false → t = { s with pending := rest } ∧ hostReadCw t a = 0) ∧
      (∀ r, readReg t r = readReg s r) ∧ (∀ space a', readByte t space a' = readByte s space a') ∧
      t.engine = s.engine ∧ t.events = s.events ∧ t.ctrl = s.ctrl

/-- R63, R65: buffer reads return the element (0 beyond the size) and change no state of the block. -/
def Obligations.BufferReadsChangeNothing : Prop :=
  (∀ (s : State) (space : ByteSpace) (a : Nat) (rest : List Turn), s.pending = .rdb space a :: rest →
    step s = .next { s with pending := rest, replies := s.replies ++ [.byte space a
      (if inSpace (byteSize s.params space) a then readByte s space a else 0)] }) ∧
  (∀ (s : State) (a : Nat) (rest : List Turn), s.pending = .rdw a :: rest →
    step s = .next { s with pending := rest, replies := s.replies ++ [.word a
      (if inSpace (cwSize s.params) a then readCw s a else 0)] })

/-- R238, R267: no host access but a write to `CMD` can touch the engine, the event stream or `ERR`: what the host does
between two chunks never alters a derivation. -/
def Obligations.PlainAccessesNeverTouchTheEngine : Prop :=
  ∀ (s : State) (turn : Turn) (rest : List Turn), s.pending = turn :: rest → isPlainAccess turn = true →
    ∃ t, step s = .next t ∧ t.engine = s.engine ∧ t.events = s.events ∧ t.ctrl.err = s.ctrl.err ∧
      t.params = s.params ∧ t.pending = rest ∧ t.nowDraws = s.nowDraws

/-! ### Reset, invariants, whole-machine rules -/

/-- R52, R260: reset is possible in every state and gives every value the spec states (the unspecified ones are free
values and are not mentioned); the machine right after power-on has them too. That register `IPC` shows the low 32 bits of a
parameter that does not fit 32 bits is the model's choice (log 11). -/
def Obligations.ResetValues : Prop :=
  let atReset := fun (s : State) =>
    s.engine.phase = .unconf ∧ s.ctrl.auto = false ∧ s.ctrl.err = .ok ∧ s.ctrl.irqStatus = 0 ∧ s.ctrl.irqEnable = 0 ∧
    s.inputs.iterCount = 0 ∧ s.inputs.dkLen = 0 ∧ s.inputs.pwLen = 0 ∧ s.inputs.saltLen = 0 ∧
    s.engine.blocks = 0 ∧ s.engine.blk = 0 ∧ s.engine.iter = 0 ∧ s.engine.resultLen = 0 ∧ s.engine.elapsed = 0 ∧
    readReg s 15 = BitVec.ofNat 32 s.params.ipc ∧ s.codec.cbLen = 0 ∧ s.codec.cwBits = 0 ∧
    s.engine.c = 0 ∧ s.engine.dkLen = 0 ∧ s.engine.saltL = [] ∧ s.events = [] ∧ irqLine s = false
  atReset State.reset ∧
  ∀ (s : State) (rest : List Turn), s.pending = .reset :: rest →
    ∃ t, step s = .next t ∧ atReset t ∧ t.params = s.params ∧ t.pending = rest

/-- The invariant holds right after reset. -/
def Obligations.InvariantHoldsAtReset : Prop := Inv State.reset

/-- R30, R43, R47, R78, R197: every step keeps the invariant: legal parameters, canonical memories within their spaces, the
ranges of the sequencing state, `T` and `U` on the reference chain, and `RESULT` the hex of the completed blocks. -/
def Obligations.EveryStepKeepsTheInvariant : Prop :=
  ∀ s t : State, Inv s → step s = .next t → Inv t

/-- R33, R36, R38: the parameters never change; pads and latched parameters change only by reset or by an `INIT`. -/
def Obligations.OnlyInitAndResetChangeTheConstruction : Prop :=
  ∀ s t : State, step s = .next t → t.params = s.params ∧
    (s.pending.head? ≠ some .reset → s.pending.head? ≠ some (.wr 0 (encode .init)) →
      t.engine.ipad = s.engine.ipad ∧ t.engine.opad = s.engine.opad ∧ t.engine.c = s.engine.c ∧
      t.engine.dkLen = s.engine.dkLen ∧ t.engine.saltL = s.engine.saltL ∧ t.engine.blocks = s.engine.blocks)

/-- R196, R261: the sequencing state changes only by reset, an accepted engine command, or the engine's own enabled step;
and `RUNNING` is entered by `START` alone (R46 (a)). -/
def Obligations.OnlyListedTransitionsMoveTheEngine : Prop :=
  ∀ s t : State, step s = .next t →
    ((t.engine.phase, t.engine.blk, t.engine.iter) ≠ (s.engine.phase, s.engine.blk, s.engine.iter) →
      s.pending.head? = some .reset ∨
      (∃ i ∈ [Instr.init, .start, .step, .abort], s.pending.head? = some (.wr 0 (encode i)) ∧ outcomeCode i s = .ok) ∨
      ((s.pending = [] ∨ s.pending.head? = some .engine) ∧ s.ctrl.auto = true ∧ s.engine.phase = .running)) ∧
    (t.engine.phase = .running → s.engine.phase ≠ .running →
      s.pending.head? = some (.wr 0 (encode .start)) ∧ s.engine.phase = .idle)

/-- R236: in a product of instances (a list of states, log 16) a transition of instance `k` is the step of its own state, which
every instance has in every state, and leaves every other instance as it was. -/
def Obligations.InstancesAreIndependent : Prop :=
  (∀ (ss : List State) (k : Nat), k < ss.length →
    ∃ ss', stepInstance ss k = some ss' ∧ ss'.length = ss.length ∧ ∀ j, j ≠ k → ss'[j]? = ss[j]?) ∧
  (∀ (ss ss' : List State) (k : Nat) (s t : State), ss[k]? = some s → step s = .next t →
    stepInstance ss k = some ss' → ss'[k]? = some t)

/-! ### Whole derivations -/

/-- R192, R190: a derivation takes exactly `BLOCKS * ceil(C/IPC)` chunks, stays `RUNNING` until the last one, and emits
exactly the `Progress` events of that many chunks and then one `Done` with the key. -/
def Obligations.DerivationCompletesAfterItsChunks : Prop :=
  ∀ s : State, Inv s → s.engine.phase = .running → s.engine.blk = 1 → s.engine.iter = 0 →
    (∀ k, k < chunkCount s.params s.engine →
      ∃ m, runCommands (List.replicate k .step) s = .next m ∧ m.engine.phase = .running) ∧
    ∃ t, runCommands (List.replicate (chunkCount s.params s.engine) .step) s = .next t ∧
      t.engine.phase = .done ∧
      t.events = s.events ++ derivationProgress s.params s.engine ++
        [.done ((blocksHex s.params.idxMask s.engine s.engine.blocks.toNat).take (2 * s.engine.dkLen.toNat)) t.engine.elapsed] ∧
      readBytes t .result 0 t.engine.resultLen =
        (blocksHex s.params.idxMask s.engine s.engine.blocks.toNat).take (2 * s.engine.dkLen.toNat)

/-- R192: the chunk size does not affect the derivation: with any two values of `IPC` the finished engines are the same, but
for the drawn `ELAPSED`. -/
def Obligations.ChunkSizeDoesNotAffectTheKey : Prop :=
  ∀ (s : State) (ipc : Nat), Inv s → s.engine.phase = .running → s.engine.blk = 1 → s.engine.iter = 0 → 1 ≤ ipc →
    let s' := { s with params := { s.params with ipc := ipc } }
    ∃ t t', runCommands (List.replicate (chunkCount s.params s.engine) .step) s = .next t ∧
      runCommands (List.replicate (chunkCount s'.params s'.engine) .step) s' = .next t' ∧
      t.engine.phase = .done ∧ t'.engine.phase = .done ∧
      { t.engine with elapsed := 0 } = { t'.engine with elapsed := 0 }

/-- R197: with `IDX_MASK = 0xFF`, constructing, starting and stepping to the end leaves in `RESULT` the hex of
PBKDF2-HMAC-SHA1 of RFC 2898 of the password, salt, count and key length the registers and buffers held. -/
def Obligations.DerivedKeyIsPbkdf2 : Prop :=
  ∀ s : State, Inv s → s.engine.phase ≠ .running → s.params.idxMask = .full →
    s.inputs.iterCount ≠ 0 → s.inputs.dkLen ≠ 0 →
    exceeds s.inputs.pwLen.toNat s.params.pwMax = false → exceeds s.inputs.saltLen.toNat s.params.saltMax = false →
    exceeds s.inputs.dkLen.toNat s.params.dkMax = false →
    ∃ t, runCommands (.init :: .start ::
        List.replicate (divUp s.inputs.dkLen.toNat 20 * divUp s.inputs.iterCount.toNat s.params.ipc) .step) s = .next t ∧
      t.engine.phase = .done ∧ t.engine.resultLen = 2 * s.inputs.dkLen.toNat ∧
      readBytes t .result 0 t.engine.resultLen =
        bytesHex (pbkdf2 (readBytes s .pw 0 s.inputs.pwLen.toNat) (readBytes s .salt 0 s.inputs.saltLen.toNat)
          s.inputs.iterCount.toNat s.inputs.dkLen.toNat)

/-- R193, R181: a derivation that is aborted and started again runs from its beginning to the same key. -/
def Obligations.RestartAfterAbortReachesTheKey : Prop :=
  ∀ s : State, Inv s → s.engine.phase = .running →
    ∃ t, runCommands (.abort :: .start :: List.replicate (chunkCount s.params s.engine) .step) s = .next t ∧
      t.engine.phase = .done ∧ t.engine.resultLen = 2 * s.engine.dkLen.toNat ∧
      readBytes t .result 0 t.engine.resultLen =
        (blocksHex s.params.idxMask s.engine s.engine.blocks.toNat).take (2 * s.engine.dkLen.toNat)

/-- R192, R238, R271: however host accesses, codec commands, `STEP`s, engine steps, `ABORT`s and `START`s interleave, a run
without `INIT` and without reset that ends in `DONE` leaves in `RESULT` the key of the construction it began with. -/
def Obligations.InterleavingDoesNotAffectTheKey : Prop :=
  ∀ (s t : State) (n : Nat), Inv s → runSteps n s = .next t →
    (∀ turn ∈ s.pending.take n, turn ≠ .reset ∧ turn ≠ .wr 0 (encode .init)) → t.engine.phase = .done →
    t.engine.resultLen = 2 * s.engine.dkLen.toNat ∧
    readBytes t .result 0 t.engine.resultLen =
      (blocksHex s.params.idxMask s.engine s.engine.blocks.toNat).take (2 * s.engine.dkLen.toNat)

/-- The model's choice (log 2) on R185, R192, R241: with `AUTO = 1` and nothing pending, a derivation just begun completes by
the engine's own steps, after exactly `BLOCKS * ceil(C/IPC)` of them, and the block then rests with the key in `RESULT`. -/
def Obligations.AutoDerivationCompletesByItself : Prop :=
  ∀ s : State, Inv s → s.pending = [] → s.ctrl.auto = true → s.engine.phase = .running → s.engine.blk = 1 →
    s.engine.iter = 0 →
    ∃ t, runSteps (chunkCount s.params s.engine) s = .next t ∧ t.engine.phase = .done ∧ step t = .next t ∧
      t.ctrl.err = s.ctrl.err ∧
      readBytes t .result 0 t.engine.resultLen =
        (blocksHex s.params.idxMask s.engine s.engine.blocks.toNat).take (2 * s.engine.dkLen.toNat)

/-- R135: the two index masks give the same key when `BLOCKS <= 15`, and the first 600 hex characters agree always. -/
def Obligations.KeysUnderBothMasksAgreeUpToBlock15 : Prop :=
  ∀ (e : Engine) (n : Nat),
    (n ≤ 15 → blocksHex .full e n = blocksHex .nibble e n) ∧
    (blocksHex .full e n).take 600 = (blocksHex .nibble e n).take 600

/-- R167 (j), R264: what `INIT` constructs depends on the input registers and buffers alone: two blocks that agree on them get
the same construction and the same fresh derivation state, whatever else they hold. -/
def Obligations.ConstructionDependsOnTheInputsAlone : Prop :=
  ∀ s s' : State, outcomeCode .init s = .ok → outcomeCode .init s' = .ok →
    s.inputs.iterCount = s'.inputs.iterCount → s.inputs.dkLen = s'.inputs.dkLen →
    s.inputs.pwLen = s'.inputs.pwLen → s.inputs.saltLen = s'.inputs.saltLen →
    (∀ a, a < s.inputs.pwLen.toNat → readByte s .pw a = readByte s' .pw a) →
    (∀ a, a < s.inputs.saltLen.toNat → readByte s .salt a = readByte s' .salt a) →
    ∃ t t', exec .init s = .next t ∧ exec .init s' = .next t' ∧
      t'.engine = { t.engine with u := s'.engine.u, t0 := s'.engine.t0, result := s'.engine.result }
end

