-- ==== Sys2Proof/Laws/Hash.lean ====
section
/-! SUPPORT. The law of the hash port: what it is, said once, so that callers show its preconditions and never unfold it. -/

namespace Sys2Proof.Machine

open Sys2Proof

/-- Under R137's preconditions the hash port is SHA-1 (R136). -/
theorem hashPort_of_pre {w : List Word} {n : Nat} (h : hashPre w n = true) : hashPort w n = sha1 w n := if_pos h

end Sys2Proof.Machine
end

