-- ==== Sys2Proof/Laws/Memory.lean ====
section
/-! SUPPORT. The laws of memory: read after write, what a write leaves alone, the canonical form and the bounds of a space are kept. -/

namespace Sys2Proof.Machine

open Sys2Proof

theorem lookup_store {α : Type} (m : Memory α) (a k : Nat) (v : α) (h : m.wf) :
    (m.store a v).lookup k = if k = a then some v else m.lookup k := by
  induction m with
  | nil => simp only [Memory.store, Memory.lookup]; split <;> rename_i h1 <;> simp [h1, eq_comm]
  | cons x m ih =>
    obtain ⟨b, y⟩ := x
    have hm : Memory.wf m := (List.pairwise_cons.mp h).2
    have ih := ih hm
    unfold Memory.store
    split
    · rename_i hab
      simp only [Memory.lookup]
      by_cases hk : k = a
      · simp [hk]
      · simp [hk, Ne.symm hk]
    · split
      · rename_i _ hab
        subst hab
        simp only [Memory.lookup]
        by_cases hk : k = a
        · simp [hk]
        · simp [hk, Ne.symm hk]
      · rename_i _ hab
        simp only [Memory.lookup]
        by_cases hk : b = k
        · subst hk; simp [Ne.symm hab]
        · simp only [hk, if_false]; exact ih

theorem mem_store {α : Type} (m : Memory α) (a : Nat) (v : α) (x : Nat × α) (h : x ∈ m.store a v) :
    x = (a, v) ∨ x ∈ m := by
  induction m with
  | nil => simpa [Memory.store] using h
  | cons y m ih =>
    obtain ⟨b, z⟩ := y
    unfold Memory.store at h
    split at h
    · simpa using h
    · split at h
      · rcases List.mem_cons.mp h with h | h
        · exact .inl h
        · exact .inr (List.mem_cons_of_mem _ h)
      · rcases List.mem_cons.mp h with h | h
        · exact .inr (by simp [h])
        · rcases ih h with h | h
          · exact .inl h
          · exact .inr (List.mem_cons_of_mem _ h)

theorem store_wf {α : Type} (m : Memory α) (a : Nat) (v : α) (h : m.wf) : Memory.wf (m.store a v) := by
  induction m with
  | nil => simp [Memory.store, Memory.wf]
  | cons y m ih =>
    obtain ⟨b, z⟩ := y
    have hc := List.pairwise_cons.mp h
    unfold Memory.store
    split
    · rename_i hab
      refine List.pairwise_cons.mpr ⟨?_, h⟩
      intro x hx
      rcases List.mem_cons.mp hx with hx | hx
      · subst hx; exact hab
      · exact Nat.lt_trans hab (hc.1 x hx)
    · split
      · rename_i _ hab
        subst hab
        exact List.pairwise_cons.mpr hc
      · rename_i h1 h2
        refine List.pairwise_cons.mpr ⟨?_, ih hc.2⟩
        intro x hx
        rcases mem_store m a v x hx with hx | hx
        · subst hx; simp only; omega
        · exact hc.1 x hx

theorem storeSeq_wf {α : Type} (m : Memory α) (a : Nat) (vs : List α) (h : m.wf) : Memory.wf (m.storeSeq a vs) := by
  induction vs generalizing m a with
  | nil => exact h
  | cons v vs ih => exact ih _ _ (store_wf m a v h)

/-- One element after a sequence of writes: the written value inside the range, the old one outside. -/
theorem lookup_storeSeq {α : Type} (m : Memory α) (a k : Nat) (vs : List α) (h : m.wf) :
    (m.storeSeq a vs).lookup k = if a ≤ k ∧ k < a + vs.length then vs[k - a]? else m.lookup k := by
  induction vs generalizing m a with
  | nil =>
    have : ¬ (a ≤ k ∧ k < a + ([] : List α).length) := by simp only [List.length_nil]; omega
    simp only [Memory.storeSeq, if_neg this]
  | cons v vs ih =>
    simp only [Memory.storeSeq]
    rw [ih _ _ (store_wf m a v h), lookup_store m a k v h]
    simp only [List.length_cons]
    by_cases hk : k = a
    · subst hk
      have h1 : ¬ (k + 1 ≤ k ∧ k < k + 1 + vs.length) := by omega
      have h2 : k ≤ k ∧ k < k + (vs.length + 1) := by omega
      simp [h2]
    · by_cases hr : a + 1 ≤ k ∧ k < a + 1 + vs.length
      · have h2 : a ≤ k ∧ k < a + (vs.length + 1) := by omega
        have h3 : k - a = (k - (a + 1)) + 1 := by omega
        simp only [hr, h2, and_self, if_true, h3, List.getElem?_cons_succ]
      · have h2 : ¬ (a ≤ k ∧ k < a + (vs.length + 1)) := by omega
        simp only [if_neg hr, if_neg h2, hk, if_false]

/-- Writes inside a space leave every listed index inside it. -/
theorem storeSeq_inSpace {α : Type} (size : Option Nat) (m : Memory α) (a : Nat) (vs : List α)
    (h : ∀ x ∈ m, inSpace size x.1 = true) (hv : ∀ k < vs.length, inSpace size (a + k) = true) :
    ∀ x ∈ m.storeSeq a vs, inSpace size x.1 = true := by
  induction vs generalizing m a with
  | nil => exact h
  | cons v vs ih =>
    apply ih
    · intro x hx
      rcases mem_store m a v x hx with hx | hx
      · subst hx; simpa using hv 0 (by simp)
      · exact h x hx
    · intro k hk
      have := hv (k + 1) (by simp only [List.length_cons]; omega)
      rwa [show a + 1 + k = a + (k + 1) by omega]

theorem store_inSpace {α : Type} (size : Option Nat) (m : Memory α) (a : Nat) (v : α)
    (h : ∀ x ∈ m, inSpace size x.1 = true) (hv : inSpace size a = true) :
    ∀ x ∈ m.store a v, inSpace size x.1 = true := by
  intro x hx
  rcases mem_store m a v x hx with hx | hx
  · subst hx; exact hv
  · exact h x hx

/-- What a sequence of writes from index 0 leaves there. -/
theorem lookup_storeSeq_zero {α : Type} (m : Memory α) (vs : List α) (h : m.wf) :
    (List.range vs.length).map (m.storeSeq 0 vs).lookup = vs.map some := by
  apply List.ext_getElem?
  intro k
  by_cases hk : k < vs.length
  · simp [hk, lookup_storeSeq m 0 k vs h]
  · simp [hk]

end Sys2Proof.Machine
end

