-- ==== Sys2Proof/Laws/Packing.lean ====
section
/-! SUPPORT. The laws of the packings: lengths, and one element of each. -/

namespace Sys2Proof.Machine

open Sys2Proof

theorem divUp_le_iff {a b q : Nat} (hb : 0 < b) : divUp a b ≤ q ↔ a ≤ q * b := by
  unfold divUp
  rw [Nat.div_le_iff_le_mul_add_pred hb, Nat.mul_comm b q]
  omega

theorem lt_divUp_iff {a b q : Nat} (hb : 0 < b) : q < divUp a b ↔ q * b < a := by
  have := divUp_le_iff (a := a) (q := q) hb
  omega

@[simp] theorem length_lepack (b : List Byte) : (lepack b).length = divUp b.length 4 := by simp [lepack]

@[simp] theorem length_leunpack (w : List Word) (bits : Nat) : (leunpack w bits).length = bits / 8 := by simp [leunpack]

theorem length_bpack8 (s : List Byte) : (bpack8 s).length = divUp (s.length * 8) 32 := by simp [bpack8]

@[simp] theorem length_bpack8_words (s : List Byte) : (bpack8 s).length = divUp s.length 4 := by
  rw [length_bpack8]; unfold divUp; omega

@[simp] theorem length_bpack16 (s : List (BitVec 16)) : (bpack16 s).length = divUp (s.length * 16) 32 := by simp [bpack16]

@[simp] theorem length_wordHex (w : Word) : (wordHex w).length = 8 := by simp [wordHex]

@[simp] theorem length_bhex (ws : List Word) : (bhex ws).length = 8 * ws.length := by
  induction ws with
  | nil => rfl
  | cons w ws ih =>
    have : bhex (w :: ws) = wordHex w ++ bhex ws := rfl
    rw [this, List.length_append, length_wordHex, ih, List.length_cons]; omega

@[simp] theorem length_digest_words (d : Digest) : d.words.length = 5 := rfl

@[simp] theorem length_idx4 (mask : IdxMask) (i : Word) : (idx4 mask i).length = 4 := rfl

theorem getElem?_lepack (b : List Byte) (m : Nat) (h : m < divUp b.length 4) :
    (lepack b)[m]? = some (b.getD (4 * m + 3) 0 ++ b.getD (4 * m + 2) 0 ++ b.getD (4 * m + 1) 0 ++ b.getD (4 * m) 0 : BitVec 32) := by
  simp [lepack, h]

theorem getElem?_bpack8 (s : List Byte) (m : Nat) (h : m < divUp s.length 4) :
    (bpack8 s)[m]? = some (s.getD (4 * m) 0 ++ s.getD (4 * m + 1) 0 ++ s.getD (4 * m + 2) 0 ++ s.getD (4 * m + 3) 0 : BitVec 32) := by
  have h' : m < divUp (s.length * 8) 32 := by rw [← length_bpack8, length_bpack8_words]; exact h
  simp [bpack8, h']

theorem getElem?_leunpack (w : List Word) (bits k : Nat) (h : k < bits / 8) :
    (leunpack w bits)[k]? = some ((w.getD (k / 4) 0).extractLsb' (8 * (k % 4)) 8) := by
  simp [leunpack, h]

theorem padWords_getElem (key : List Word) (pad : Word) (k : Nat) (h : k < 16) :
    (padWords key pad)[k] = key.getD k 0 ^^^ pad := by
  simp [padWords]

/-- Byte `q` of four bytes put together, the last one lowest. -/
theorem byte_append4 (a b c d : Byte) (q : Nat) (h : q < 4) :
    (a ++ b ++ c ++ d : BitVec 32).extractLsb' (8 * q) 8 = (if q = 0 then d else if q = 1 then c else if q = 2 then b else a) := by
  apply BitVec.eq_of_getLsbD_eq
  intro i hi
  rw [BitVec.getLsbD_extractLsb', BitVec.getLsbD_append, BitVec.getLsbD_append, BitVec.getLsbD_append]
  interval_cases q
  · have h1 : 8 * 0 + i < 8 := by omega
    simp [hi]
  · have h1 : ¬ (8 * 1 + i < 8) := by omega
    have h2 : (8 * 1 + i - 8 < 8) := by omega
    have h3 : 8 * 1 + i - 8 = i := by omega
    rw [h3] at *
    simp [hi, h1]
  · have h1 : ¬ (8 * 2 + i < 8) := by omega
    have h2 : ¬ (8 * 2 + i - 8 < 8) := by omega
    have h3 : 8 * 2 + i - 8 - 8 = i := by omega
    rw [h3] at *
    simp [hi, h1, h2]
  · have h1 : ¬ (8 * 3 + i < 8) := by omega
    have h2 : ¬ (8 * 3 + i - 8 < 8) := by omega
    have h2 : ¬ (8 * 3 + i - 8 -8 < 8) := by omega
    have h3 : 8 * 3 + i - 8 - 8 -8 = i := by omega
    rw [h3] at *
    simp [*]

/-- Half `q` of two halves put together, the last one lowest. -/
theorem half_append2 (a b : BitVec 16) (q : Nat) (h : q < 2) :
    (a ++ b : BitVec 32).extractLsb' (16 * q) 16 = (if q = 0 then b else a) := by
  apply BitVec.eq_of_getLsbD_eq
  intro i hi
  rw [BitVec.getLsbD_extractLsb', BitVec.getLsbD_append]
  interval_cases q
  · have h1 : 16 * 0 + i < 16 := by omega
    simp [hi]
  · have h1 : ¬ (16 * 1 + i < 16) := by omega
    have h3 : 16 * 1 + i - 16 = i := by omega
    rw [h3] at *
    simp [hi, h1]

/-- Two words with the same four bytes are equal. -/
theorem word_ext (x y : Word) (h : ∀ q, q < 4 → x.extractLsb' (8 * q) 8 = y.extractLsb' (8 * q) 8) : x = y := by
  apply BitVec.eq_of_getLsbD_eq
  intro i hi
  have := congrArg (fun z : Byte => z.getLsbD (i % 8)) (h (i / 8) (by omega))
  simp only [BitVec.getLsbD_extractLsb'] at this
  rw [show 8 * (i / 8) + i % 8 = i by omega] at this
  have h8 : i % 8 < 8 := by omega
  simpa [h8] using this

/-- R111. -/
theorem lepack_byte (b : List Byte) (m q : Nat) (hm : m < divUp b.length 4) (hq : q < 4) :
    ((lepack b).getD m 0).extractLsb' (8 * q) 8 = b.getD (4 * m + q) 0 := by
  rw [List.getD_eq_getElem?_getD, getElem?_lepack b m hm, Option.getD_some, byte_append4 _ _ _ _ _ hq]
  interval_cases q <;> simp

/-- R130 at 8 bits per character, counted from the low end of the word. -/
theorem bpack8_byte (b : List Byte) (m q : Nat) (hm : m < divUp b.length 4) (hq : q < 4) :
    ((bpack8 b).getD m 0).extractLsb' (8 * q) 8 = b.getD (4 * m + (3 - q)) 0 := by
  rw [List.getD_eq_getElem?_getD, getElem?_bpack8 b m hm, Option.getD_some, byte_append4 _ _ _ _ _ hq]
  interval_cases q <;> simp

/-- R114, with 0 beyond the end. -/
theorem leunpack_getD (w : List Word) (bits k : Nat) : (leunpack w bits).getD k 0 = if k < bits / 8 then (w.getD (k / 4) 0).extractLsb' (8 * (k % 4)) 8 else 0 := by
  split
  · rename_i h; rw [List.getD_eq_getElem?_getD, getElem?_leunpack _ _ _ h]; rfl
  · rw [List.getD_eq_getElem?_getD, List.getElem?_eq_none (by simp; omega)]; rfl

end Sys2Proof.Machine
end

