-- ==== Sys2Proof/Laws/State.lean ====
section
/-! SUPPORT. What each named state update does to each field of State: one lemma per field per update. -/

namespace Sys2Proof.Machine

open Sys2Proof

@[simp] theorem raiseIrq_params (bits : BitVec 3) (s : State) : (raiseIrq bits s).params = s.params := rfl
@[simp] theorem raiseIrq_ctrl (bits : BitVec 3) (s : State) : (raiseIrq bits s).ctrl = { s.ctrl with irqStatus := s.ctrl.irqStatus ||| bits } := rfl
@[simp] theorem raiseIrq_inputs (bits : BitVec 3) (s : State) : (raiseIrq bits s).inputs = s.inputs := rfl
@[simp] theorem raiseIrq_engine (bits : BitVec 3) (s : State) : (raiseIrq bits s).engine = s.engine := rfl
@[simp] theorem raiseIrq_codec (bits : BitVec 3) (s : State) : (raiseIrq bits s).codec = s.codec := rfl
@[simp] theorem raiseIrq_events (bits : BitVec 3) (s : State) : (raiseIrq bits s).events = s.events := rfl
@[simp] theorem raiseIrq_replies (bits : BitVec 3) (s : State) : (raiseIrq bits s).replies = s.replies := rfl
@[simp] theorem raiseIrq_pending (bits : BitVec 3) (s : State) : (raiseIrq bits s).pending = s.pending := rfl
@[simp] theorem raiseIrq_env (bits : BitVec 3) (s : State) : (raiseIrq bits s).env = s.env := rfl
@[simp] theorem raiseIrq_nowDraws (bits : BitVec 3) (s : State) : (raiseIrq bits s).nowDraws = s.nowDraws := rfl
@[simp] theorem raiseIrq_resets (bits : BitVec 3) (s : State) : (raiseIrq bits s).resets = s.resets := rfl

@[simp] theorem clearIrq_params (v : Word) (s : State) : (clearIrq v s).params = s.params := rfl
@[simp] theorem clearIrq_ctrl (v : Word) (s : State) : (clearIrq v s).ctrl = { s.ctrl with irqStatus := s.ctrl.irqStatus &&& ~~~(v.setWidth 3) } := rfl
@[simp] theorem clearIrq_inputs (v : Word) (s : State) : (clearIrq v s).inputs = s.inputs := rfl
@[simp] theorem clearIrq_engine (v : Word) (s : State) : (clearIrq v s).engine = s.engine := rfl
@[simp] theorem clearIrq_codec (v : Word) (s : State) : (clearIrq v s).codec = s.codec := rfl
@[simp] theorem clearIrq_events (v : Word) (s : State) : (clearIrq v s).events = s.events := rfl
@[simp] theorem clearIrq_replies (v : Word) (s : State) : (clearIrq v s).replies = s.replies := rfl
@[simp] theorem clearIrq_pending (v : Word) (s : State) : (clearIrq v s).pending = s.pending := rfl
@[simp] theorem clearIrq_env (v : Word) (s : State) : (clearIrq v s).env = s.env := rfl
@[simp] theorem clearIrq_nowDraws (v : Word) (s : State) : (clearIrq v s).nowDraws = s.nowDraws := rfl
@[simp] theorem clearIrq_resets (v : Word) (s : State) : (clearIrq v s).resets = s.resets := rfl

@[simp] theorem emit_params (e : Event) (s : State) : (emit e s).params = s.params := rfl
@[simp] theorem emit_ctrl (e : Event) (s : State) : (emit e s).ctrl = s.ctrl := rfl
@[simp] theorem emit_inputs (e : Event) (s : State) : (emit e s).inputs = s.inputs := rfl
@[simp] theorem emit_engine (e : Event) (s : State) : (emit e s).engine = s.engine := rfl
@[simp] theorem emit_codec (e : Event) (s : State) : (emit e s).codec = s.codec := rfl
@[simp] theorem emit_events (e : Event) (s : State) : (emit e s).events = s.events ++ [e] := rfl
@[simp] theorem emit_replies (e : Event) (s : State) : (emit e s).replies = s.replies := rfl
@[simp] theorem emit_pending (e : Event) (s : State) : (emit e s).pending = s.pending := rfl
@[simp] theorem emit_env (e : Event) (s : State) : (emit e s).env = s.env := rfl
@[simp] theorem emit_nowDraws (e : Event) (s : State) : (emit e s).nowDraws = s.nowDraws := rfl
@[simp] theorem emit_resets (e : Event) (s : State) : (emit e s).resets = s.resets := rfl

@[simp] theorem reply_params (r : Reply) (s : State) : (reply r s).params = s.params := rfl
@[simp] theorem reply_ctrl (r : Reply) (s : State) : (reply r s).ctrl = s.ctrl := rfl
@[simp] theorem reply_inputs (r : Reply) (s : State) : (reply r s).inputs = s.inputs := rfl
@[simp] theorem reply_engine (r : Reply) (s : State) : (reply r s).engine = s.engine := rfl
@[simp] theorem reply_codec (r : Reply) (s : State) : (reply r s).codec = s.codec := rfl
@[simp] theorem reply_events (r : Reply) (s : State) : (reply r s).events = s.events := rfl
@[simp] theorem reply_replies (r : Reply) (s : State) : (reply r s).replies = s.replies ++ [r] := rfl
@[simp] theorem reply_pending (r : Reply) (s : State) : (reply r s).pending = s.pending := rfl
@[simp] theorem reply_env (r : Reply) (s : State) : (reply r s).env = s.env := rfl
@[simp] theorem reply_nowDraws (r : Reply) (s : State) : (reply r s).nowDraws = s.nowDraws := rfl
@[simp] theorem reply_resets (r : Reply) (s : State) : (reply r s).resets = s.resets := rfl

@[simp] theorem consumeNow_params (s : State) : (consumeNow s).params = s.params := rfl
@[simp] theorem consumeNow_ctrl (s : State) : (consumeNow s).ctrl = s.ctrl := rfl
@[simp] theorem consumeNow_inputs (s : State) : (consumeNow s).inputs = s.inputs := rfl
@[simp] theorem consumeNow_engine (s : State) : (consumeNow s).engine = s.engine := rfl
@[simp] theorem consumeNow_codec (s : State) : (consumeNow s).codec = s.codec := rfl
@[simp] theorem consumeNow_events (s : State) : (consumeNow s).events = s.events := rfl
@[simp] theorem consumeNow_replies (s : State) : (consumeNow s).replies = s.replies := rfl
@[simp] theorem consumeNow_pending (s : State) : (consumeNow s).pending = s.pending := rfl
@[simp] theorem consumeNow_env (s : State) : (consumeNow s).env = s.env := rfl
@[simp] theorem consumeNow_nowDraws (s : State) : (consumeNow s).nowDraws = s.nowDraws + 1 := rfl
@[simp] theorem consumeNow_resets (s : State) : (consumeNow s).resets = s.resets := rfl

@[simp] theorem accept_params (s : State) : (accept s).params = s.params := rfl
@[simp] theorem accept_ctrl (s : State) : (accept s).ctrl = { s.ctrl with err := .ok } := rfl
@[simp] theorem accept_inputs (s : State) : (accept s).inputs = s.inputs := rfl
@[simp] theorem accept_engine (s : State) : (accept s).engine = s.engine := rfl
@[simp] theorem accept_codec (s : State) : (accept s).codec = s.codec := rfl
@[simp] theorem accept_events (s : State) : (accept s).events = s.events := rfl
@[simp] theorem accept_replies (s : State) : (accept s).replies = s.replies := rfl
@[simp] theorem accept_pending (s : State) : (accept s).pending = s.pending := rfl
@[simp] theorem accept_env (s : State) : (accept s).env = s.env := rfl
@[simp] theorem accept_nowDraws (s : State) : (accept s).nowDraws = s.nowDraws := rfl
@[simp] theorem accept_resets (s : State) : (accept s).resets = s.resets := rfl

@[simp] theorem reject_params (code : ErrCode) (s : State) : (reject code s).params = s.params := rfl
@[simp] theorem reject_ctrl (code : ErrCode) (s : State) : (reject code s).ctrl = { s.ctrl with err := code, irqStatus := s.ctrl.irqStatus ||| irqErr } := rfl
@[simp] theorem reject_inputs (code : ErrCode) (s : State) : (reject code s).inputs = s.inputs := rfl
@[simp] theorem reject_engine (code : ErrCode) (s : State) : (reject code s).engine = s.engine := rfl
@[simp] theorem reject_codec (code : ErrCode) (s : State) : (reject code s).codec = s.codec := rfl
@[simp] theorem reject_events (code : ErrCode) (s : State) : (reject code s).events = s.events := rfl
@[simp] theorem reject_replies (code : ErrCode) (s : State) : (reject code s).replies = s.replies := rfl
@[simp] theorem reject_pending (code : ErrCode) (s : State) : (reject code s).pending = s.pending := rfl
@[simp] theorem reject_env (code : ErrCode) (s : State) : (reject code s).env = s.env := rfl
@[simp] theorem reject_nowDraws (code : ErrCode) (s : State) : (reject code s).nowDraws = s.nowDraws := rfl
@[simp] theorem reject_resets (code : ErrCode) (s : State) : (reject code s).resets = s.resets := rfl

@[simp] theorem resetBlock_params (s : State) : (resetBlock s).params = s.params := rfl
@[simp] theorem resetBlock_ctrl (s : State) : (resetBlock s).ctrl = { auto := false, err := .ok, irqStatus := 0, irqEnable := 0 } := rfl
@[simp] theorem resetBlock_inputs (s : State) : (resetBlock s).inputs = { iterCount := 0, dkLen := 0, pwLen := 0, saltLen := 0, pw := [], salt := [] } := rfl
@[simp] theorem resetBlock_engine (s : State) : (resetBlock s).engine = Engine.atReset s.env (s.resets + 1) := rfl
@[simp] theorem resetBlock_codec (s : State) : (resetBlock s).codec = { cbLen := 0, cwBits := 0, cb := [], cw := [] } := rfl
@[simp] theorem resetBlock_events (s : State) : (resetBlock s).events = [] := rfl
@[simp] theorem resetBlock_replies (s : State) : (resetBlock s).replies = s.replies := rfl
@[simp] theorem resetBlock_pending (s : State) : (resetBlock s).pending = s.pending := rfl
@[simp] theorem resetBlock_env (s : State) : (resetBlock s).env = s.env := rfl
@[simp] theorem resetBlock_nowDraws (s : State) : (resetBlock s).nowDraws = s.nowDraws := rfl
@[simp] theorem resetBlock_resets (s : State) : (resetBlock s).resets = s.resets + 1 := rfl

end Sys2Proof.Machine
end

