-- ==== Sys2Proof/Laws/Ops.lean ====
section
/-! SUPPORT. What each named operation can do: every writer of a memory keeps its canonical form and its bounds, register and buffer writes keep all else, and reads see what was written. -/

namespace Sys2Proof.Machine

open Sys2Proof

@[simp] theorem length_readBytes (s : State) (space : ByteSpace) (a n : Nat) : (readBytes s space a n).length = n := by
  simp [readBytes]

@[simp] theorem length_readCws (s : State) (a n : Nat) : (readCws s a n).length = n := by simp [readCws]

theorem exceeds_eq_not_fits (cap : Option Nat) (n : Nat) : exceeds n cap = !fits cap n := by
  cases cap with
  | none => rfl
  | some c =>
    by_cases h : c < n
    · simp [exceeds, fits, h, Nat.not_le.mpr h]
    · simp [exceeds, fits, h, Nat.not_lt.mp h]

/-- The machine right after reset has every memory in canonical form. -/
theorem reset_memories (space : ByteSpace) :
    memoryInv (byteSize State.reset.params space) (byteMem State.reset space) ∧
    memoryInv (cwSize State.reset.params) State.reset.codec.cw := by
  have nil : ∀ (α : Type) (size : Option Nat), memoryInv size ([] : Memory α) :=
    fun _ _ => ⟨List.Pairwise.nil, fun x hx => absurd hx List.not_mem_nil⟩
  exact ⟨by cases space <;> exact nil _ _, nil _ _⟩

/-- A sequence of writes within a space keeps canonical form and bounds. -/
theorem storeSeq_memoryInv {α : Type} (size : Option Nat) (m : Memory α) (a : Nat) (vs : List α) (h : memoryInv size m)
    (hv : ∀ k < vs.length, inSpace size (a + k) = true) : memoryInv size (m.storeSeq a vs) :=
  ⟨storeSeq_wf m a vs h.1, storeSeq_inSpace size m a vs h.2 hv⟩

theorem store_memoryInv {α : Type} (size : Option Nat) (m : Memory α) (a : Nat) (v : α) (h : memoryInv size m)
    (hv : inSpace size a = true) : memoryInv size (m.store a v) :=
  ⟨store_wf m a v h.1, store_inSpace size m a v h.2 hv⟩

theorem hostWriteByte_memoryInv (s : State) (space space' : ByteSpace) (a : Nat) (b : Byte)
    (h : memoryInv (byteSize s.params space') (byteMem s space')) :
    memoryInv (byteSize s.params space') (byteMem (hostWriteByte s space a b) space') := by
  unfold hostWriteByte
  split
  · rename_i ha
    cases space <;> cases space' <;> first | exact h | exact store_memoryInv _ _ _ _ h ha
  · exact h

theorem hostWriteCw_memoryInv (s : State) (a : Nat) (w : Word) (h : memoryInv (cwSize s.params) s.codec.cw) :
    memoryInv (cwSize s.params) (hostWriteCw s a w).codec.cw := by
  unfold hostWriteCw
  split
  · rename_i ha; exact store_memoryInv _ _ _ _ h ha
  · exact h

theorem packCodec_memoryInv (s : State) (hf : packLengthFits s = true) (h : memoryInv (cwSize s.params) s.codec.cw) :
    memoryInv (cwSize s.params) (packCodec s).cw := by
  refine storeSeq_memoryInv _ _ _ _ h ?_
  intro k hk
  simp only [length_lepack, codecBytesOperand, length_readBytes] at hk
  unfold packLengthFits at hf
  cases hc : s.params.cbMax with
  | none => simp [cwSize, hc, inSpace]
  | some c =>
    simp only [hc, fits, decide_eq_true_eq] at hf
    simp only [cwSize, hc, Option.map_some, inSpace, decide_eq_true_eq, Nat.zero_add]
    rw [lt_divUp_iff (by omega)] at *
    omega

theorem unpackCodec_memoryInv (s : State) (hf : unpackLengthFits s = true) (h : memoryInv s.params.cbMax s.codec.cb) :
    memoryInv s.params.cbMax (unpackCodec s).cb := by
  refine storeSeq_memoryInv _ _ _ _ h ?_
  intro k hk
  simp only [length_leunpack] at hk
  simp only [unpackLengthFits, Bool.and_eq_true] at hf
  cases hc : s.params.cbMax with
  | none => simp [inSpace]
  | some c =>
    have := hf.2
    simp only [hc, fits, decide_eq_true_eq] at this
    simp only [inSpace, decide_eq_true_eq, Nat.zero_add]
    omega

/-- What a register write other than a command keeps (R62): everything but the control, input and codec registers. -/
structure WriteRegFrame (s t : State) : Prop where
  params : t.params = s.params
  engine : t.engine = s.engine
  events : t.events = s.events
  replies : t.replies = s.replies
  pending : t.pending = s.pending
  env : t.env = s.env
  nowDraws : t.nowDraws = s.nowDraws
  resets : t.resets = s.resets
  err : t.ctrl.err = s.ctrl.err
  pw : t.inputs.pw = s.inputs.pw
  salt : t.inputs.salt = s.inputs.salt
  cb : t.codec.cb = s.codec.cb
  cw : t.codec.cw = s.codec.cw

theorem writeReg_frame (s : State) (r : Nat) (v : Word) : WriteRegFrame s (writeReg s r v) := by
  unfold writeReg
  split <;> constructor <;> rfl

/-- What a host write to a buffer keeps (R64, R65). -/
structure BufferWriteFrame (s t : State) : Prop where
  params : t.params = s.params
  ctrl : t.ctrl = s.ctrl
  engine : t.engine = s.engine
  events : t.events = s.events
  replies : t.replies = s.replies
  pending : t.pending = s.pending
  env : t.env = s.env
  nowDraws : t.nowDraws = s.nowDraws
  resets : t.resets = s.resets
  cwBits : t.codec.cwBits = s.codec.cwBits

theorem hostWriteByte_frame (s : State) (space : ByteSpace) (a : Nat) (b : Byte) :
    BufferWriteFrame s (hostWriteByte s space a b) := by
  unfold hostWriteByte
  split
  · cases space <;> constructor <;> rfl
  · constructor <;> rfl

theorem hostWriteCw_frame (s : State) (a : Nat) (w : Word) : BufferWriteFrame s (hostWriteCw s a w) := by
  unfold hostWriteCw
  split <;> constructor <;> rfl

/-- Reading a buffer depends on that buffer and the reset contents alone. -/
theorem readByte_congr {s t : State} {space : ByteSpace} (hm : byteMem t space = byteMem s space) (he : t.env = s.env)
    (hr : t.resets = s.resets) (a : Nat) : readByte t space a = readByte s space a := by
  simp only [readByte, hm, he, hr]

theorem readCw_congr {s t : State} (hm : t.codec.cw = s.codec.cw) (he : t.env = s.env) (hr : t.resets = s.resets) (a : Nat) :
    readCw t a = readCw s a := by
  simp only [readCw, hm, he, hr]

end Sys2Proof.Machine
end

