-- ==== Sys2Proof/Laws/PerInstr.lean ====
section
/-! SUPPORT. Facts about every command, one lemma per constructor. -/

/-- Family `EncodedFields`: the word of a command has its opcode in `OP`, 0 in `RSV`, and is a well-formed command word
(30_encoding.md R90, R93). -/
def Sys2Proof.Laws.EncodedFields.Statement (i : Sys2Proof.Instr) : Prop :=
  Sys2Proof.opField (Sys2Proof.encode i) = Sys2Proof.opcode i ∧ Sys2Proof.rsvField (Sys2Proof.encode i) = 0 ∧
    Sys2Proof.commandWordWellFormed (Sys2Proof.encode i) = true

namespace Sys2Proof.Laws.EncodedFields

theorem init : Statement .init := ⟨by decide, by decide, by decide⟩
theorem start : Statement .start := ⟨by decide, by decide, by decide⟩
theorem step : Statement .step := ⟨by decide, by decide, by decide⟩
theorem abort : Statement .abort := ⟨by decide, by decide, by decide⟩
theorem pack : Statement .pack := ⟨by decide, by decide, by decide⟩
theorem unpack : Statement .unpack := ⟨by decide, by decide, by decide⟩

end Sys2Proof.Laws.EncodedFields
end

