-- ==== Sys2Proof/Laws/Run.lean ====
section
/-! SUPPORT. The laws of the run: what iterations leave alone, how far they count, and that `T` and `U` follow the reference chain. -/

namespace Sys2Proof.Machine

open Sys2Proof

/-- The parts of the engine the reference computation reads (R197). -/
structure SameKey (e e' : Engine) : Prop where
  ipad : e.ipad = e'.ipad
  opad : e.opad = e'.opad
  saltL : e.saltL = e'.saltL

theorem SameKey.symm {e e' : Engine} (h : SameKey e e') : SameKey e' e := ⟨h.ipad.symm, h.opad.symm, h.saltL.symm⟩

theorem firstU_congr {e e' : Engine} (h : SameKey e e') (mask : IdxMask) (i : Word) :
    firstU mask e i = firstU mask e' i := by
  simp only [firstU, h.ipad, h.opad, h.saltL]

theorem nextU_congr {e e' : Engine} (h : SameKey e e') (u : Digest) : nextU e u = nextU e' u := by
  simp only [nextU, h.ipad, h.opad]

theorem uRef_congr {e e' : Engine} (h : SameKey e e') (mask : IdxMask) (i : Word) (j : Nat) :
    uRef mask e i j = uRef mask e' i j := by
  induction j with
  | zero => exact firstU_congr h mask i
  | succ j ih => simp only [uRef, ih, nextU_congr h]

theorem tRef_congr {e e' : Engine} (h : SameKey e e') (mask : IdxMask) (i : Word) (j : Nat) :
    tRef mask e i j = tRef mask e' i j := by
  induction j with
  | zero => rfl
  | succ j ih => simp only [tRef, ih, uRef_congr h]

theorem blocksHex_congr {e e' : Engine} (h : SameKey e e') (hc : e.c = e'.c) (mask : IdxMask) (n : Nat) :
    blocksHex mask e n = blocksHex mask e' n := by
  simp only [blocksHex, hc, tRef_congr h]

/-- Forty characters a block (R133, R188). -/
theorem length_blocksHex (mask : IdxMask) (e : Engine) (n : Nat) : (blocksHex mask e n).length = 40 * n := by
  simp only [blocksHex, List.length_flatMap, length_bhex, length_digest_words]
  simp [Nat.mul_comm]

/-- Everything of the engine but `U`, `T` and `ITER` (R186: an iteration writes nothing else). -/
structure SameOutsideIteration (e e' : Engine) : Prop extends SameKey e e' where
  phase : e.phase = e'.phase
  blocks : e.blocks = e'.blocks
  blk : e.blk = e'.blk
  resultLen : e.resultLen = e'.resultLen
  elapsed : e.elapsed = e'.elapsed
  c : e.c = e'.c
  dkLen : e.dkLen = e'.dkLen
  t0 : e.t0 = e'.t0
  result : e.result = e'.result

theorem iterations_same (mask : IdxMask) (n : Nat) (e : Engine) : SameOutsideIteration (iterations mask n e) e := by
  induction n generalizing e with
  | zero => exact ⟨⟨rfl, rfl, rfl⟩, rfl, rfl, rfl, rfl, rfl, rfl, rfl, rfl, rfl⟩
  | succ n ih =>
    have h := ih (oneIteration mask e)
    exact ⟨⟨h.ipad, h.opad, h.saltL⟩, h.phase, h.blocks, h.blk, h.resultLen, h.elapsed, h.c, h.dkLen, h.t0, h.result⟩

theorem iterations_iter (mask : IdxMask) (n : Nat) (e : Engine) (h : e.iter.toNat + n < 2 ^ 32) :
    (iterations mask n e).iter.toNat = e.iter.toNat + n := by
  induction n generalizing e with
  | zero => rfl
  | succ n ih =>
    have h1 : (oneIteration mask e).iter.toNat = e.iter.toNat + 1 := by
      simp only [oneIteration, BitVec.toNat_add]
      have : (1 : BitVec 32).toNat = 1 := rfl
      omega
    rw [iterations, ih _ (by omega), h1]; omega

/-- `T` and `U` are what the reference says for the iterations counted in `ITER` (R47 (iv)). -/
structure OnChain (mask : IdxMask) (e : Engine) : Prop where
  t : e.t = tRef mask e e.blk e.iter.toNat
  u : e.iter ≠ 0 → e.u = uRef mask e e.blk (e.iter.toNat - 1)

theorem oneIteration_onChain (mask : IdxMask) (e : Engine) (h : OnChain mask e) (hb : e.iter.toNat + 1 < 2 ^ 32) :
    OnChain mask (oneIteration mask e) ∧ (oneIteration mask e).iter.toNat = e.iter.toNat + 1 := by
  have h1 : (oneIteration mask e).iter.toNat = e.iter.toNat + 1 := by
    simp only [oneIteration, BitVec.toNat_add]
    have : (1 : BitVec 32).toNat = 1 := rfl
    omega
  have hk : SameKey (oneIteration mask e) e := ⟨rfl, rfl, rfl⟩
  have hu : (oneIteration mask e).u = uRef mask e e.blk e.iter.toNat := by
    simp only [oneIteration]
    by_cases h0 : e.iter = 0
    · simp [h0, uRef]
    · have hpos : e.iter.toNat ≠ 0 := fun hz => h0 (BitVec.eq_of_toNat_eq (by simpa using hz))
      obtain ⟨j, hj⟩ := Nat.exists_eq_succ_of_ne_zero hpos
      have hju : e.u = uRef mask e e.blk j := by have := h.u h0; rwa [hj] at this
      rw [if_neg h0, hju, hj]; rfl
  refine ⟨⟨?_, ?_⟩, h1⟩
  · rw [h1, tRef_congr hk]
    change e.t.xor (oneIteration mask e).u = _
    rw [hu, h.t]; rfl
  · intro _
    rw [hu, h1, uRef_congr hk]; rfl

theorem iterations_onChain (mask : IdxMask) (n : Nat) (e : Engine) (h : OnChain mask e)
    (hb : e.iter.toNat + n < 2 ^ 32) : OnChain mask (iterations mask n e) := by
  induction n generalizing e with
  | zero => exact h
  | succ n ih =>
    obtain ⟨h', h1⟩ := oneIteration_onChain mask e h (by omega)
    exact ih _ h' (by omega)

/-- The engine after the iterations of a chunk. -/
theorem chunkProgress_engine (s : State) :
    (chunkProgress s).engine = iterations s.params.idxMask (chunkSize s) s.engine := rfl

/-- The two ways a chunk can end (R186): inside the block, or with the block completed. -/
theorem chunk_cases (s : State) :
    ((chunkProgress s).engine.iter.toNat < (chunkProgress s).engine.c.toNat ∧ chunk s = chunkProgress s) ∨
    (¬ (chunkProgress s).engine.iter.toNat < (chunkProgress s).engine.c.toNat ∧ chunk s = chunkCompletion (chunkProgress s)) := by
  unfold chunk
  by_cases h : (chunkProgress s).engine.iter.toNat < (chunkProgress s).engine.c.toNat <;> simp [h]

/-- What a completed block leads to (R188, R190): the next block, or the end of the derivation. -/
theorem chunkCompletion_cases (s : State) :
    (isLastBlock s.engine = false ∧ chunkCompletion s = { s with engine := completeBlock s.engine }) ∨
    (isLastBlock s.engine = true ∧
      chunkCompletion s = finishDerivation { s with engine := completeBlock s.engine }) := by
  unfold chunkCompletion
  cases h : isLastBlock s.engine <;> simp

/-- What a chunk leaves alone, whichever way it ends (R186). -/
structure ChunkFrame (s t : State) : Prop extends SameKey t.engine s.engine where
  params : t.params = s.params
  inputs : t.inputs = s.inputs
  codec : t.codec = s.codec
  replies : t.replies = s.replies
  pending : t.pending = s.pending
  env : t.env = s.env
  resets : t.resets = s.resets
  auto : t.ctrl.auto = s.ctrl.auto
  err : t.ctrl.err = s.ctrl.err
  irqEnable : t.ctrl.irqEnable = s.ctrl.irqEnable
  c : t.engine.c = s.engine.c
  dkLen : t.engine.dkLen = s.engine.dkLen
  blocks : t.engine.blocks = s.engine.blocks
  t0 : t.engine.t0 = s.engine.t0

theorem chunk_frame (s : State) : ChunkFrame s (chunk s) := by
  have hi := iterations_same s.params.idxMask (chunkSize s) s.engine
  rcases chunk_cases s with ⟨_, h⟩ | ⟨_, h⟩
  · rw [h]
    exact ⟨⟨hi.ipad, hi.opad, hi.saltL⟩, rfl, rfl, rfl, rfl, rfl, rfl, rfl, rfl, rfl, rfl, hi.c, hi.dkLen, hi.blocks, hi.t0⟩
  · rw [h]
    rcases chunkCompletion_cases (chunkProgress s) with ⟨_, h⟩ | ⟨_, h⟩ <;> rw [h] <;>
      exact ⟨⟨hi.ipad, hi.opad, hi.saltL⟩, rfl, rfl, rfl, rfl, rfl, rfl, rfl, rfl, rfl, rfl, hi.c, hi.dkLen, hi.blocks, hi.t0⟩

end Sys2Proof.Machine
end

