-- ==== Sys2Proof/Laws/Step.lean ====
section
/-! SUPPORT. Everything a command and a step can do, said once: later proofs cite these instead of unfolding the meanings. -/

namespace Sys2Proof.Machine

open Sys2Proof

theorem execInit_cases {s t : State} (h : exec .init s = .next t) :
    (s.engine.phase = .running ∧ t = reject .badPhase s) ∨
    (s.engine.phase ≠ .running ∧ initParamBad s = true ∧ t = reject .badParam s) ∨
    (s.engine.phase ≠ .running ∧ initParamBad s = false ∧ initLengthsFit s = false ∧ t = reject .badLength s) ∨
    (s.engine.phase ≠ .running ∧ initParamBad s = false ∧ initLengthsFit s = true ∧
      t = accept { s with engine := constructEngine s }) := by
  simp only [exec, execInit] at h
  by_cases h1 : s.engine.phase = .running
  · simp only [h1, if_true] at h; injection h with h; exact .inl ⟨h1, h.symm⟩
  · cases h2 : initParamBad s <;> cases h3 : initLengthsFit s <;> simp [h1, h2, h3] at h <;> simp [h1, h]

theorem execStart_cases {s t : State} (h : exec .start s = .next t) :
    (s.engine.phase = .idle ∧
      t = accept (consumeNow { s with engine := { s.engine with t0 := nowValue s, phase := .running } })) ∨
    (s.engine.phase ≠ .idle ∧ t = reject .badPhase s) := by
  simp only [exec, execStart] at h
  by_cases h1 : s.engine.phase = .idle <;> simp only [h1, if_true, if_false] at h <;> injection h with h
  · exact .inl ⟨h1, h.symm⟩
  · exact .inr ⟨h1, h.symm⟩

theorem execStep_cases {s t : State} (h : exec .step s = .next t) :
    (s.engine.phase = .running ∧ t = accept (chunk s)) ∨ (s.engine.phase ≠ .running ∧ t = reject .badPhase s) := by
  simp only [exec, execStep] at h
  by_cases h1 : s.engine.phase = .running <;> simp only [h1, if_true, if_false] at h <;> injection h with h
  · exact .inl ⟨h1, h.symm⟩
  · exact .inr ⟨h1, h.symm⟩

theorem execAbort_cases {s t : State} (h : exec .abort s = .next t) :
    (s.engine.phase = .running ∧ t = accept { s with engine := abortEngine s.engine }) ∨
    (s.engine.phase ≠ .running ∧ t = reject .badPhase s) := by
  simp only [exec, execAbort] at h
  by_cases h1 : s.engine.phase = .running <;> simp only [h1, if_true, if_false] at h <;> injection h with h
  · exact .inl ⟨h1, h.symm⟩
  · exact .inr ⟨h1, h.symm⟩

theorem execPack_cases {s t : State} (h : exec .pack s = .next t) :
    (packLengthFits s = true ∧ t = accept { s with codec := packCodec s }) ∨
    (packLengthFits s = false ∧ t = reject .badLength s) := by
  simp only [exec, execPack] at h
  cases h1 : packLengthFits s <;> simp [h1] at h <;> simp [h]

theorem execUnpack_cases {s t : State} (h : exec .unpack s = .next t) :
    (unpackLengthFits s = true ∧ t = accept { s with codec := unpackCodec s }) ∨
    (unpackLengthFits s = false ∧ t = reject .badLength s) := by
  simp only [exec, execUnpack] at h
  cases h1 : unpackLengthFits s <;> simp [h1] at h <;> simp [h]

/-- What one step can be: the transition at the head of the pending turns, or, with none pending, the engine's own. -/
theorem step_cases {s t : State} (h : step s = .next t) :
    (s.pending = [] ∧ t = engineTurn s) ∨
    (∃ turn rest, s.pending = turn :: rest ∧ takeTurn turn { s with pending := rest } = .next t) := by
  unfold step nextTurn at h
  split at h
  · rename_i hp; injection h with h; exact .inl ⟨hp, h.symm⟩
  · rename_i turn rest hp; exact .inr ⟨turn, rest, hp, h⟩

/-- What one turn can be. -/
theorem takeTurn_cases {turn : Turn} {s t : State} (h : takeTurn turn s = .next t) :
    (∃ r, t = reply r s) ∨
    (∃ r v, turn = .wr r v ∧ r ≠ 0 ∧ t = writeReg s r v) ∨
    (∃ space a b, turn = .wrb space a b ∧ t = hostWriteByte s space a b) ∨
    (∃ a w, turn = .wrw a w ∧ t = hostWriteCw s a w) ∨
    (turn = .engine ∧ t = engineTurn s) ∨
    (turn = .reset ∧ t = resetBlock s) ∨
    (∃ w, turn = .wr 0 w ∧ t = reject .illegalCmd s) ∨
    (∃ w i, turn = .wr 0 w ∧ decode w = .ok i ∧ exec i s = .next t) := by
  cases turn with
  | rd r => simp only [takeTurn] at h; injection h with h; exact .inl ⟨_, h.symm⟩
  | rdb space a => simp only [takeTurn] at h; injection h with h; exact .inl ⟨_, h.symm⟩
  | rdw a => simp only [takeTurn] at h; injection h with h; exact .inl ⟨_, h.symm⟩
  | wrb space a b => simp only [takeTurn] at h; injection h with h; exact .inr (.inr (.inl ⟨_, _, _, rfl, h.symm⟩))
  | wrw a w => simp only [takeTurn] at h; injection h with h; exact .inr (.inr (.inr (.inl ⟨_, _, rfl, h.symm⟩)))
  | engine => simp only [takeTurn] at h; injection h with h; exact .inr (.inr (.inr (.inr (.inl ⟨rfl, h.symm⟩))))
  | reset =>
    simp only [takeTurn] at h; injection h with h
    exact .inr (.inr (.inr (.inr (.inr (.inl ⟨rfl, h.symm⟩)))))
  | wr r v =>
    simp only [takeTurn] at h
    by_cases hr : r = 0
    · subst hr
      simp only [if_true, issueCommand] at h
      cases hd : decode v with
      | error e =>
        simp only [hd] at h; injection h with h
        exact .inr (.inr (.inr (.inr (.inr (.inr (.inl ⟨v, rfl, h.symm⟩))))))
      | ok i =>
        simp only [hd] at h
        exact .inr (.inr (.inr (.inr (.inr (.inr (.inr ⟨v, i, rfl, hd, h⟩))))))
    · simp only [hr, if_false] at h; injection h with h
      exact .inr (.inl ⟨r, v, rfl, hr, h.symm⟩)

/-- What a transition of one instance of a product is (R236): its own step, put in its place. -/
theorem stepInstance_of_next {ss : List State} {k : Nat} {s t : State} (hs : ss[k]? = some s) (h : step s = .next t) :
    stepInstance ss k = some (ss.set k t) := by
  simp only [stepInstance, hs, h]

end Sys2Proof.Machine
end

