-- ==== Sys2Proof/Tests/Slice0.lean ====
section
/-! SUPPORT. The model's own tests: what WellFormed refuses, the decoder on words written out from the spec's encoding, single steps against the spec's worked examples, and one witness for the hypotheses of every statement that has some. -/

namespace Sys2Proof.Tests

open Sys2Proof Sys2Proof.Machine

/-! ### WellFormed refuses (R7, R90, R95) -/

theorem test_rsv_bit_refused : rsvIsZero 0x00000010 = false ∧ commandWordWellFormed 0x00000011 = false := by decide
theorem test_reserved_op_refused : opIsAssigned 0x0000000F = false ∧ commandWordWellFormed 0x00000000 = false := by decide
theorem test_assigned_word_accepted : commandWordWellFormed 0x00000009 = true := by decide
theorem test_ipc_zero_refused :
    Params.ipcPositive ⟨0, .full, none, none, none, none⟩ = false ∧
    Params.wellFormed ⟨0, .full, none, none, none, none⟩ = false := by decide
theorem test_dkMax_too_large_refused :
    Params.dkMaxFits ⟨1, .full, none, none, some 4294967296, none⟩ = false ∧
    Params.dkMaxFits ⟨1, .full, none, none, some 4294967295, none⟩ = true := by decide

/-! ### Decoding (R90, R93, R95): the words are the pattern string of R90 with the opcode bits of R93 -/

theorem test_decode_init : decode 0b00000000000000000000000000000001 = .ok .init := by decide
theorem test_decode_start : decode 0b00000000000000000000000000000010 = .ok .start := by decide
theorem test_decode_step : decode 0b00000000000000000000000000000011 = .ok .step := by decide
theorem test_decode_abort : decode 0b00000000000000000000000000000100 = .ok .abort := by decide
theorem test_decode_pack : decode 0b00000000000000000000000000001000 = .ok .pack := by decide
theorem test_decode_unpack : decode 0b00000000000000000000000000001001 = .ok .unpack := by decide
theorem test_decode_zero_illegal : decode 0 = .error (.reservedOpcode 0) := by decide
theorem test_decode_rsv_illegal : decode 0x80000001 = .error (.reservedBitsSet 0x8000000) := by decide
theorem test_table_word : decodeTableWord 32 9 = some .unpack ∧ decodeTableWord 32 0xFFFFFFFF = none := by decide

/-! ### Small states -/

/-- Small capacities, two iterations a chunk. -/
def demoParams : Params := ⟨2, .full, some 100, some 8, some 60, some 9⟩

/-- A construction (`C = 3`, `DKLEN = 25`, so two blocks) in `RUNNING`, nothing done yet. -/
def demoEngine : Engine :=
  { phase := .running, blocks := 2, blk := 1, iter := 0, resultLen := 0, elapsed := 0, c := 3, dkLen := 25,
    saltL := [1, 2], t0 := 5, ipad := Vector.replicate 16 0x36363636, opad := Vector.replicate 16 0x5C5C5C5C,
    t := Digest.zero, u := Digest.zero, result := [] }

/-- The same construction, `iter` iterations into block `blk`. -/
def runningAt (blk iter : Word) : Engine :=
  { demoEngine with
    blk := blk, iter := iter, t := tRef .full demoEngine blk iter.toNat, u := uRef .full demoEngine blk (iter.toNat - 1),
    resultLen := 40 * (blk.toNat - 1),
    result := Memory.storeSeq [] 0 ((blocksHex .full demoEngine 2).take (40 * (blk.toNat - 1))) }

/-- The same construction, completed. -/
def doneEngine : Engine :=
  { demoEngine with
    phase := .done, blk := 3, u := uRef .full demoEngine 2 2, resultLen := 50,
    result := Memory.storeSeq [] 0 ((blocksHex .full demoEngine 2).take 50) }

/-- The same construction, not started. -/
def idleEngine : Engine := { demoEngine with phase := .idle }

/-- No construction yet. -/
def unconfEngine : Engine := { demoEngine with phase := .unconf, blocks := 0, blk := 0, c := 0, dkLen := 0, saltL := [] }

/-- A state around an engine, with these turns still to come. -/
def demo (e : Engine) (pending : List Turn) : State :=
  { params := demoParams, ctrl := ⟨false, .ok, 0, 0⟩,
    inputs := { iterCount := 3, dkLen := 25, pwLen := 1, saltLen := 2, pw := [(0, 0x61)], salt := [(0, 1), (1, 2)] },
    engine := e, codec := { cbLen := 5, cwBits := 40, cb := [(0, 1), (1, 2), (2, 3), (3, 4), (4, 5)], cw := [(0, 7)] },
    events := [], replies := [], pending := pending, env := 0, nowDraws := 0, resets := 0 }

/-- The same with `CTRL.AUTO = 1`. -/
def demoAuto (e : Engine) (pending : List Turn) : State := { demo e pending with ctrl := ⟨true, .ok, 0, 0⟩ }

/-- The state an outcome answers satisfies `f`. -/
def after (o : Host.Outcome State Fault Refusal) (f : State → Bool) : Bool :=
  match o with
  | .next t => f t
  | .fault _ => false
  | .refused _ => false

/-! ### Single steps against the spec's worked examples -/

/-- The input state of the example of R161: `password`, `salt`, `c = 1`, `dkLen = 20`. -/
def exampleInit : State :=
  { demo unconfEngine [.wr 0 1] with
    inputs := { iterCount := 1, dkLen := 20, pwLen := 8, saltLen := 4,
                pw := [(0, 0x70), (1, 0x61), (2, 0x73), (3, 0x73), (4, 0x77), (5, 0x6f), (6, 0x72), (7, 0x64)],
                salt := [(0, 0x73), (1, 0x61), (2, 0x6c), (3, 0x74)] } }

/-- The engine of the example of R181 after `START`, its pads as R161 gives them. -/
def exampleRun : Engine :=
  { demoEngine with
    blocks := 1, c := 1, dkLen := 20, saltL := [0x73, 0x61, 0x6c, 0x74],
    ipad := ((Vector.replicate 16 0x36363636).set 0 0x46574545).set 1 0x41594452,
    opad := ((Vector.replicate 16 0x5c5c5c5c).set 0 0x2c3d2f2f).set 1 0x2b332e38 }

/-- R161's example. -/
theorem test_init_pads : after (step exampleInit) (fun t =>
    t.engine.ipad == exampleRun.ipad && t.engine.opad == exampleRun.opad && t.engine.blocks == 1 && t.engine.blk == 1 &&
    t.engine.phase == .idle && t.ctrl.err == .ok) = true := by decide +kernel

/-- R223's example: a zero count is reported before a length that is too long. -/
theorem test_init_priority :
    after (exec .init { exampleInit with inputs := { exampleInit.inputs with iterCount := 0, pwLen := 101 } })
      (fun t => t.ctrl.err == .badParam && t.ctrl.irqStatus == 4 && t.engine.phase == .unconf) = true := by decide

/-- R181's example. -/
theorem test_start : after (step (demo { exampleRun with phase := .idle } [.wr 0 2])) (fun t =>
    t.engine.phase == .running && t.engine.blk == 1 && t.engine.iter == 0 && t.events == [] && t.nowDraws == 1) = true := by
  decide

/-- R198, the source's vector: the one chunk leaves the key `0c60c80f961f0e71f3a9b524af6012062fe037a6`. -/
theorem test_step_vector : after (step (demo exampleRun [.wr 0 3])) (fun t =>
    t.engine.u == ⟨0x0c60c80f, 0x961f0e71, 0xf3a9b524, 0xaf601206, 0x2fe037a6⟩ && t.engine.phase == .done &&
    t.engine.blk == 2 && t.engine.resultLen == 40 && t.ctrl.irqStatus == 3 &&
    (readBytes t .result 0 40).take 8 == [0x30, 0x63, 0x36, 0x30, 0x63, 0x38, 0x30, 0x66]) = true := by decide +kernel

/-- R193's example: `(RUNNING, 2, 7)` with `RESULT_LEN = 40`. -/
theorem test_abort : after (step (demo { demoEngine with c := 9, blk := 2, iter := 7, resultLen := 40, t := ⟨1, 2, 3, 4, 5⟩ } [.wr 0 4]))
    (fun t => t.engine == { demoEngine with c := 9, phase := .idle } && t.events == []) = true := by decide

/-- R112's example, on a word buffer that held something else. -/
theorem test_pack : after (step (demo unconfEngine [.wr 0 8])) (fun t =>
    t.codec.cw == [(0, 0x04030201), (1, 0x00000005)] && t.codec.cwBits == 40 && t.ctrl.err == .ok) = true := by decide

/-- R115's example: the padding byte is not emitted. -/
theorem test_unpack :
    after (exec .unpack { demo unconfEngine [] with codec := ⟨0, 56, [], [(0, 0xDEADBEEF), (1, 0x00C0FFEE)]⟩ }) (fun t =>
      t.codec.cb.map (·.2) == [0xEF, 0xBE, 0xAD, 0xDE, 0xEE, 0xFF, 0xC0] && t.codec.cbLen == 7) = true := by decide

/-- R115: a bit length that is not a multiple of 8 is rejected. -/
theorem test_unpack_reject :
    after (exec .unpack { demo unconfEngine [] with codec := ⟨3, 41, [], []⟩ })
      (fun t => t.ctrl.err == .badLength && t.ctrl.irqStatus == 4 && t.codec == ⟨3, 41, [], []⟩) = true := by decide

/-- R136's anchors of `HASH` (95_test_vectors.md V23). -/
theorem test_hash_abc : hashPort [0x61626300] 24 = ⟨0xa9993e36, 0x4706816a, 0xba3e2571, 0x7850c26c, 0x9cd0d89d⟩ := by
  decide +kernel
theorem test_hash_empty : hashPort [] 0 = ⟨0xda39a3ee, 0x5e6b4b0d, 0x3255bfef, 0x95601890, 0xafd80709⟩ := by decide +kernel

/-- R266's pair, R130's example and R132's example. -/
theorem test_packers : lepack [0x61, 0x62, 0x63] = [0x00636261] ∧ bpack8 [0x61, 0x62, 0x63] = [0x61626300] ∧
    bpack16 [0x0061, 0x0062, 0x0063] = [0x00610062, 0x00630000] ∧
    bhex [0x0c60c80f] = [0x30, 0x63, 0x36, 0x30, 0x63, 0x38, 0x30, 0x66] := by decide

/-- R134's example. -/
theorem test_index : idx4 .full 16 = [0, 0, 0, 0x10] ∧ idx4 .nibble 16 = [0, 0, 0, 0] := by decide

/-- R26: a write clears exactly the bits written as 1. -/
theorem test_irq_clear : after (step { demo demoEngine [.wr 4 5] with ctrl := ⟨false, .ok, 7, 0⟩ })
    (fun t => t.ctrl.irqStatus == 2) = true := by decide

/-! ### The invariant holds in concrete states of every phase -/

theorem runningAt_key (blk iter : Word) : SameKey (runningAt blk iter) demoEngine := ⟨rfl, rfl, rfl⟩

theorem doneEngine_key : SameKey doneEngine demoEngine := ⟨rfl, rfl, rfl⟩

theorem demo_constructed : Constructed demoParams demoEngine := by
  constructor <;> decide

/-- `RESULT` holding a prefix of the two blocks' characters is as the invariant asks. -/
theorem prefix_resultInv (e : Engine) (n : Nat) (hn : n ≤ 80) (hk : SameKey e demoEngine) (hc : e.c = demoEngine.c)
    (hb : e.blocks = 2) (hl : e.resultLen = n)
    (hr : e.result = Memory.storeSeq [] 0 ((blocksHex .full demoEngine 2).take n)) : resultInv demoParams e := by
  have hlen : ((blocksHex .full demoEngine 2).take n).length = n := by
    rw [List.length_take, length_blocksHex]; omega
  have h := lookup_storeSeq_zero [] ((blocksHex .full demoEngine 2).take n) (by simp [Memory.wf])
  rw [hlen] at h
  simp only [resultInv, hl, hr, hb]
  rw [h, blocksHex_congr hk hc]
  rfl

theorem prefix_memoryInv (n : Nat) (hn : n ≤ 80) :
    memoryInv (byteSize demoParams .result) (Memory.storeSeq [] 0 ((blocksHex .full demoEngine 2).take n)) := by
  refine ⟨storeSeq_wf _ _ _ (by simp [Memory.wf]), storeSeq_inSpace _ _ _ _ (by simp) ?_⟩
  intro k hk
  rw [List.length_take] at hk
  simp only [byteSize, demoParams, Option.map, inSpace]
  exact decide_eq_true (by omega)

theorem demo_inv (e : Engine) (p : List Turn) (hr : memoryInv (byteSize demoParams .result) e.result)
    (hp : phaseInv demoParams e) (hx : resultInv demoParams e) : Inv (demo e p) := by
  have h : Inv (demo unconfEngine []) := by
    constructor
    case params => decide
    case cwBits => decide
    case phase => exact ⟨rfl, rfl, rfl, rfl, rfl, rfl, rfl, rfl⟩
    case resultPrefix => rfl
    all_goals exact ⟨by decide, by decide⟩
  exact ⟨h.params, h.pw, h.salt, hr, h.cb, h.cw, h.cwBits, hp, hx⟩

/-- Every place of the demo derivation: both blocks, every count, its bounds included. -/
theorem runningAt_inv (blk iter : Word) (p : List Turn) (hb : 1 ≤ blk.toNat ∧ blk.toNat ≤ 2) (hi : iter.toNat < 3) :
    Inv (demo (runningAt blk iter) p) := by
  have hk := runningAt_key blk iter
  have hn : 40 * (blk.toNat - 1) ≤ 80 := by omega
  refine demo_inv _ _ (prefix_memoryInv _ hn) ?_ (prefix_resultInv _ _ hn hk rfl rfl rfl rfl)
  have hc := demo_constructed
  refine ⟨⟨hc.cPos, hc.dkPos, hc.dkFits, hc.blocksEq, hc.saltFits⟩, hb.1, hb.2, hi, rfl, rfl, ?_, ?_⟩
  · exact (tRef_congr hk .full blk iter.toNat).symm
  · exact fun _ => (uRef_congr hk .full blk (iter.toNat - 1)).symm

theorem done_inv (p : List Turn) : Inv (demo doneEngine p) := by
  have hk := doneEngine_key
  refine demo_inv _ _ (prefix_memoryInv 50 (by omega)) ?_ (prefix_resultInv _ 50 (by omega) hk rfl rfl rfl rfl)
  have hc := demo_constructed
  exact ⟨⟨hc.cPos, hc.dkPos, hc.dkFits, hc.blocksEq, hc.saltFits⟩, rfl, rfl, rfl, rfl, (uRef_congr hk .full 2 2).symm⟩

theorem idle_inv (p : List Turn) : Inv (demo idleEngine p) := by
  refine demo_inv _ _ ⟨by decide, by decide⟩ ?_ rfl
  have hc := demo_constructed
  exact ⟨⟨hc.cPos, hc.dkPos, hc.dkFits, hc.blocksEq, hc.saltFits⟩, rfl, rfl, rfl, rfl, rfl⟩

theorem unconf_inv (p : List Turn) : Inv (demo unconfEngine p) :=
  demo_inv _ _ ⟨by decide, by decide⟩ ⟨rfl, rfl, rfl, rfl, rfl, rfl, rfl, rfl⟩ rfl

/-- `CTRL.AUTO` is no part of the invariant. -/
theorem auto_inv (e : Engine) (p : List Turn) (h : Inv (demo e p)) : Inv (demoAuto e p) :=
  ⟨h.params, h.pw, h.salt, h.result, h.cb, h.cw, h.cwBits, h.phase, h.resultPrefix⟩

/-! ### Witnesses: states and operands that meet the hypotheses of each statement, clause by clause, at the bounds -/

theorem witness_DecodeAndEncodeAgree : decode 9 = .ok .unpack ∧ encode .unpack = 9 := by decide

theorem witness_IllegalWordsAreRejected :
    (∃ s : State, s.pending = .wr 0 0x00000010 :: [] ∧ rsvField 0x00000010 ≠ 0) ∧
    (∃ s : State, s.pending = .wr 0 0x0000000F :: [.rd 3] ∧
      opField 0x0000000F ∈ ([0x0, 0x5, 0x6, 0x7, 0xA, 0xB, 0xC, 0xD, 0xE, 0xF] : List (BitVec 4))) :=
  ⟨⟨demo unconfEngine [.wr 0 0x10], rfl, by decide⟩, ⟨demo unconfEngine [.wr 0 0xF, .rd 3], rfl, by decide⟩⟩

theorem witness_CommandWriteRunsItsCommand :
    (∃ s : State, s.pending = .wr 0 3 :: [.rd 1] ∧ decode 3 = .ok .step) ∧ (∃ s : State, s.pending = .rd 0 :: []) :=
  ⟨⟨demo demoEngine [.wr 0 3, .rd 1], rfl, by decide⟩, ⟨demo demoEngine [.rd 0], rfl⟩⟩

theorem witness_RestsWhenNothingIsPending :
    (∃ s : State, s.pending = [] ∧ s.ctrl.auto = true ∧ s.engine.phase = .running) ∧
    (∃ s : State, s.pending = [] ∧ s.ctrl.auto = false) ∧ (∃ s : State, s.pending = [] ∧ s.engine.phase ≠ .running) :=
  ⟨⟨demoAuto demoEngine [], rfl, rfl, rfl⟩, ⟨demo demoEngine [], rfl, rfl⟩, ⟨demoAuto doneEngine [], rfl, by decide⟩⟩

theorem witness_PhaseAdmissionFollowsTheTable : ∃ s : State, admitted .start s.engine.phase = false :=
  ⟨demo demoEngine [], rfl⟩

theorem witness_RejectionPriority :
    ∃ (s : State) (e : DecodeError), s.pending = .wr 0 0 :: [] ∧ decode 0 = .error e :=
  ⟨demo unconfEngine [.wr 0 0], .reservedOpcode 0, rfl, by decide⟩

theorem witness_RejectionChangesNothingElse :
    (outcomeCode .abort (demo idleEngine []) ≠ .ok ∧ outcomeCode .start (demo idleEngine []) = .ok) ∧
    (∃ (s : State) (e : DecodeError), s.pending = .wr 0 6 :: [] ∧ decode 6 = .error e ∧
      s.ctrl.irqEnable.getLsbD 2 = true) :=
  ⟨by decide, { demo idleEngine [.wr 0 6] with ctrl := ⟨false, .ok, 0, 4⟩ }, .reservedOpcode 6, rfl, by decide, by decide⟩

/-- The four clauses; the second fourth-clause state has a 100-byte password, `PW_MAX` itself. -/
theorem witness_InitConstructsTheEngine :
    (demo demoEngine []).engine.phase = .running ∧
    (let s := { demo unconfEngine [] with inputs := { (demo unconfEngine []).inputs with dkLen := 0 } }
     s.engine.phase ≠ .running ∧ s.inputs.dkLen = 0) ∧
    (let s := { demo unconfEngine [] with inputs := { (demo unconfEngine []).inputs with pwLen := 101 } }
     s.engine.phase ≠ .running ∧ s.inputs.iterCount ≠ 0 ∧ s.inputs.dkLen ≠ 0 ∧
      exceeds s.inputs.pwLen.toNat s.params.pwMax = true) ∧
    (let s := { demo unconfEngine [] with inputs := { (demo unconfEngine []).inputs with pwLen := 100, saltLen := 8, dkLen := 60 } }
     s.engine.phase ≠ .running ∧ s.inputs.iterCount ≠ 0 ∧ s.inputs.dkLen ≠ 0 ∧
      exceeds s.inputs.pwLen.toNat s.params.pwMax = false ∧ exceeds s.inputs.saltLen.toNat s.params.saltMax = false ∧
      exceeds s.inputs.dkLen.toNat s.params.dkMax = false ∧ 65 ≤ s.inputs.pwLen.toNat) := by decide

theorem witness_KeyShorteningBoundary :
    (List.replicate 64 (0x61 : Byte)).length ≤ 64 ∧ 65 ≤ (List.replicate 65 (0x61 : Byte)).length := by decide

theorem witness_StartBeginsTheDerivation :
    (∃ s : State, s.engine.phase = .idle ∧ Inv s) ∧ (demo doneEngine []).engine.phase ≠ .idle ∧
    (demo demoEngine []).engine.phase = .running := ⟨⟨demo idleEngine [], rfl, idle_inv []⟩, by decide, rfl⟩

theorem witness_StepRunsOneChunk :
    (demo demoEngine []).engine.phase = .running ∧ (demo idleEngine []).engine.phase ≠ .running := ⟨rfl, by decide⟩

theorem witness_AbortReturnsToIdle :
    (demo demoEngine []).engine.phase = .running ∧ (demo unconfEngine []).engine.phase ≠ .running := ⟨rfl, by decide⟩

theorem witness_EnginesOwnStepIsTheChunk :
    (∃ s : State, s.pending = .engine :: [] ∧ s.ctrl.auto = true ∧ s.engine.phase = .running) ∧
    (∃ s : State, s.pending = .engine :: [] ∧ s.ctrl.auto = false) :=
  ⟨⟨demoAuto demoEngine [.engine], rfl, rfl, rfl⟩, ⟨demo demoEngine [.engine], rfl, rfl⟩⟩

/-- Inside a block, at the end of the first block (by a short chunk), at the end of the last one. -/
theorem witness_StepMovesTheSequencingState :
    (∃ s : State, Inv s ∧ s.engine.phase = .running ∧
      s.engine.iter.toNat + min s.params.ipc (s.engine.c.toNat - s.engine.iter.toNat) < s.engine.c.toNat) ∧
    (∃ s : State, Inv s ∧ s.engine.phase = .running ∧ s.engine.blk ≠ s.engine.blocks ∧
      s.engine.iter.toNat + min s.params.ipc (s.engine.c.toNat - s.engine.iter.toNat) = s.engine.c.toNat) ∧
    (∃ s : State, Inv s ∧ s.engine.phase = .running ∧ s.engine.blk = s.engine.blocks ∧
      s.engine.iter.toNat + min s.params.ipc (s.engine.c.toNat - s.engine.iter.toNat) = s.engine.c.toNat) :=
  ⟨⟨demo (runningAt 1 0) [], runningAt_inv 1 0 [] (by decide) (by decide), rfl, by decide⟩,
   ⟨demo (runningAt 1 2) [], runningAt_inv 1 2 [] (by decide) (by decide), rfl, by decide, by decide⟩,
   ⟨demo (runningAt 2 1) [], runningAt_inv 2 1 [] (by decide) (by decide), rfl, rfl, by decide⟩⟩

theorem witness_ChunkFrame :
    ∃ s : State, s.engine.phase = .running ∧ memoryInv (byteSize s.params .result) s.engine.result :=
  ⟨demo (runningAt 2 2) [], rfl, prefix_memoryInv 40 (by omega)⟩

/-- A run with forty characters already written. -/
theorem witness_WrittenResultNeverChanges :
    ∃ s t : State, Inv s ∧ step s = .next t ∧ s.pending.head? ≠ some .reset ∧ 39 < s.engine.resultLen :=
  ⟨demo (runningAt 2 0) [.wr 0 4], _, runningAt_inv 2 0 _ (by decide) (by decide), rfl, by decide, by decide⟩

theorem witness_ProgressIsStrictlyIncreasing : ∃ s : State, Inv s ∧ s.engine.phase = .running :=
  ⟨demo (runningAt 2 2) [], runningAt_inv 2 2 [] (by decide) (by decide), rfl⟩

theorem witness_CountersStayInRange : ∃ s : State, Inv s ∧ s.params.dkMax = some 60 := ⟨demo doneEngine [], done_inv [], rfl⟩

theorem witness_DoneIsTerminal : ∃ s : State, Inv s ∧ s.engine.phase = .done := ⟨demo doneEngine [], done_inv [], rfl⟩

/-- `CB_LEN` one above `CB_MAX`, and `CB_LEN = CB_MAX`, no multiple of 4. -/
theorem witness_PackPacksLittleEndian :
    (let s := { demo unconfEngine [] with codec := ⟨10, 0, [], []⟩ }
     exceeds s.codec.cbLen.toNat s.params.cbMax = true) ∧
    (let s := { demo unconfEngine [] with codec := ⟨9, 0, [(0, 1), (8, 2)], [(2, 7)]⟩ }
     exceeds s.codec.cbLen.toNat s.params.cbMax = false ∧ s.codec.cw.wf) := by decide

theorem witness_UnpackUnpacksLittleEndian :
    (let s := { demo unconfEngine [] with codec := ⟨0, 71, [], []⟩ }
     s.codec.cwBits % 8 ≠ 0) ∧
    (let s := { demo unconfEngine [] with codec := ⟨0, 80, [], []⟩ }
     exceeds (s.codec.cwBits / 8) s.params.cbMax = true) ∧
    (let s := { demo unconfEngine [] with codec := ⟨0, 72, [(3, 9)], [(0, 1)]⟩ }
     s.codec.cwBits % 8 = 0 ∧ exceeds (s.codec.cwBits / 8) s.params.cbMax = false ∧
      s.codec.cwBits ≤ 8 * (2 ^ 32 - 1) ∧ s.codec.cb.wf) := by decide

/-- 56 bits of two words: the padding byte is 0 here, and it is not in the second pair. -/
theorem witness_PackOfUnpackLosesOnlyPadding :
    56 % 8 = 0 ∧ 56 ≤ 32 * ([0xDEADBEEF, 0x00C0FFEE] : List Word).length ∧
    56 ≤ 32 * ([0xDEADBEEF, 0x01C0FFEE] : List Word).length := by decide

theorem witness_PackThenUnpackRestoresTheBytes :
    let s := demo unconfEngine []
    exceeds s.codec.cbLen.toNat s.params.cbMax = false ∧ s.codec.cb.wf ∧ s.codec.cw.wf := by decide

theorem witness_CodecAndEngineDoNotInteract :
    (Instr.unpack = .pack ∨ Instr.unpack = .unpack) ∧ Instr.step ≠ .pack ∧ Instr.step ≠ .unpack := by decide

/-- The last byte of a last word that is full, and of one that is not. -/
theorem witness_PackersAreByteReversals :
    1 < (lepack [1, 2, 3, 4, 5]).length ∧ 3 < 4 ∧ ([1, 2, 3, 4] : List Byte).length % 4 = 0 := by decide

theorem witness_BigEndianPackerLayout :
    7 < 4 * (bpack8 [1, 2, 3, 4, 5]).length ∧ 3 < 2 * (bpack16 [1, 2, 3]).length := by decide

theorem witness_HexFormatterDigits : 0 < ([0xFFFFFFFF] : List Word).length ∧ 7 < 8 := by decide

theorem witness_TruncatedHexIsTruncatedBytes : (0 : Nat) ≤ 20 ∧ (20 : Nat) ≤ 20 := by decide

theorem witness_BlockIndexUnderBothMasks : idx4 .full 256 = idx4 .nibble 256 ∧ idx4 .full 16 ≠ idx4 .nibble 16 := by decide

theorem witness_RegisterReadReturnsAndChangesNothing :
    ∀ r : Nat, ∃ s : State, s.pending = .rd r :: [] := fun r => ⟨demo doneEngine [.rd r], rfl⟩

/-- One register of each access kind, the last mapped one and the first unmapped one. -/
theorem witness_RegisterWritesByAccessKind :
    (∃ s : State, s.pending = .wr 0 1 :: [] ∧ decode 1 = .ok .init) ∧
    (∃ (s : State) (e : DecodeError), s.pending = .wr 0 16 :: [] ∧ decode 16 = .error e) ∧
    ∀ r ∈ [2, 4, 5, 6, 17, 1, 15, 18], r ≠ 0 ∧ ∃ s : State, s.pending = .wr r 0xFFFFFFFF :: [] := by
  refine ⟨⟨demo idleEngine [.wr 0 1], rfl, by decide⟩, ⟨demo idleEngine [.wr 0 16], .reservedBitsSet 1, rfl, by decide⟩, ?_⟩
  intro r hr
  refine ⟨?_, demo demoEngine [.wr r 0xFFFFFFFF], rfl⟩
  rintro rfl
  exact absurd hr (by decide)

/-- The bits just above each field, and the first unmapped number. -/
theorem witness_ReservedBitsReadZero : (2 : Nat) ≤ 2 ∧ (1 : Nat) ≤ 1 ∧ (3 : Nat) ≤ 3 ∧ (17 : Nat) < 18 := by decide

/-- The last index of `CB`, the first one beyond it, and `RESULT`. -/
theorem witness_ByteWriteThenRead :
    (∃ s : State, s.pending = .wrb .cb 8 0xAB :: [] ∧ (byteMem s .cb).wf ∧ inSpace (byteSize s.params .cb) 8 = true) ∧
    (∃ s : State, s.pending = .wrb .cb 9 0xAB :: [] ∧ (byteMem s .cb).wf ∧ inSpace (byteSize s.params .cb) 9 = false) ∧
    (∃ s : State, s.pending = .wrb .result 0 0xAB :: [] ∧ (byteMem s .result).wf) :=
  ⟨⟨demo demoEngine [.wrb .cb 8 0xAB], rfl, by decide, by decide⟩,
   ⟨demo demoEngine [.wrb .cb 9 0xAB], rfl, by decide, by decide⟩,
   ⟨demo demoEngine [.wrb .result 0 0xAB], rfl, by decide⟩⟩

theorem witness_WordWriteThenRead :
    (∃ s : State, s.pending = .wrw 2 0xAB :: [] ∧ s.codec.cw.wf ∧ inSpace (cwSize s.params) 2 = true) ∧
    (∃ s : State, s.pending = .wrw 3 0xAB :: [] ∧ s.codec.cw.wf ∧ inSpace (cwSize s.params) 3 = false) :=
  ⟨⟨demo demoEngine [.wrw 2 0xAB], rfl, by decide, by decide⟩, ⟨demo demoEngine [.wrw 3 0xAB], rfl, by decide, by decide⟩⟩

theorem witness_BufferReadsChangeNothing :
    (∃ s : State, s.pending = .rdb .pw 99 :: []) ∧ (∃ s : State, s.pending = .rdw 2 :: []) :=
  ⟨⟨demo demoEngine [.rdb .pw 99], rfl⟩, ⟨demo demoEngine [.rdw 2], rfl⟩⟩

theorem witness_PlainAccessesNeverTouchTheEngine :
    ∃ s : State, s.pending = .wr 6 9 :: [] ∧ isPlainAccess (.wr 6 9) = true := ⟨demo demoEngine [.wr 6 9], rfl, rfl⟩

theorem witness_ResetValues : ∃ s : State, s.pending = .reset :: [] := ⟨demo demoEngine [.reset], rfl⟩

/-- A state of each phase, and a step from it. -/
theorem witness_EveryStepKeepsTheInvariant :
    (∃ s t : State, Inv s ∧ s.engine.phase = .unconf ∧ step s = .next t) ∧
    (∃ s t : State, Inv s ∧ s.engine.phase = .idle ∧ step s = .next t) ∧
    (∃ s t : State, Inv s ∧ s.engine.phase = .running ∧ step s = .next t) ∧
    (∃ s t : State, Inv s ∧ s.engine.phase = .done ∧ step s = .next t) :=
  ⟨⟨demo unconfEngine [.wrb .pw 0 1], _, unconf_inv _, rfl, rfl⟩, ⟨demo idleEngine [.wr 0 2], _, idle_inv _, rfl, rfl⟩,
   ⟨demo (runningAt 1 2) [.wr 2 1], _, runningAt_inv 1 2 _ (by decide) (by decide), rfl, rfl⟩,
   ⟨demo doneEngine [.reset], _, done_inv _, rfl, rfl⟩⟩

theorem witness_OnlyInitAndResetChangeTheConstruction :
    ∃ s t : State, step s = .next t ∧ s.pending.head? ≠ some .reset ∧ s.pending.head? ≠ some (.wr 0 (encode .init)) :=
  ⟨demo demoEngine [.wr 0 4], _, rfl, by decide, by decide⟩

/-- `ABORT` moves the engine; `START` enters `RUNNING`. -/
theorem witness_OnlyListedTransitionsMoveTheEngine :
    (∃ s t : State, step s = .next t ∧
      (t.engine.phase, t.engine.blk, t.engine.iter) ≠ (s.engine.phase, s.engine.blk, s.engine.iter)) ∧
    (∃ s t : State, step s = .next t ∧ t.engine.phase = .running ∧ s.engine.phase ≠ .running) :=
  ⟨⟨demo demoEngine [.wr 0 4], _, rfl, by decide⟩, ⟨demo idleEngine [.wr 0 2], _, rfl, rfl, by decide⟩⟩

/-- The second of two instances takes an `ABORT`, which changes it. -/
theorem witness_InstancesAreIndependent :
    ∃ (ss ss' : List State) (s t : State), 1 < ss.length ∧ ss[1]? = some s ∧ step s = .next t ∧
      stepInstance ss 1 = some ss' ∧ t.engine.phase ≠ s.engine.phase :=
  ⟨[demo idleEngine [], demo demoEngine [.wr 0 4]], _, _, _, by simp, rfl, rfl, rfl, by decide⟩

theorem witness_DerivationCompletesAfterItsChunks :
    ∃ s : State, Inv s ∧ s.engine.phase = .running ∧ s.engine.blk = 1 ∧ s.engine.iter = 0 ∧
      0 < chunkCount s.params s.engine :=
  ⟨demo (runningAt 1 0) [], runningAt_inv 1 0 [] (by decide) (by decide), rfl, rfl, rfl, by decide⟩

theorem witness_ChunkSizeDoesNotAffectTheKey :
    ∃ s : State, Inv s ∧ s.engine.phase = .running ∧ s.engine.blk = 1 ∧ s.engine.iter = 0 ∧ 1 ≤ 1 :=
  ⟨demo (runningAt 1 0) [], runningAt_inv 1 0 [] (by decide) (by decide), rfl, rfl, rfl, Nat.le_refl 1⟩

theorem witness_DerivedKeyIsPbkdf2 :
    ∃ s : State, Inv s ∧ s.engine.phase ≠ .running ∧ s.params.idxMask = .full ∧
      s.inputs.iterCount ≠ 0 ∧ s.inputs.dkLen ≠ 0 ∧
      exceeds s.inputs.pwLen.toNat s.params.pwMax = false ∧ exceeds s.inputs.saltLen.toNat s.params.saltMax = false ∧
      exceeds s.inputs.dkLen.toNat s.params.dkMax = false :=
  ⟨demo doneEngine [], done_inv [], by decide, rfl, by decide, by decide, rfl, rfl, rfl⟩

theorem witness_RestartAfterAbortReachesTheKey : ∃ s : State, Inv s ∧ s.engine.phase = .running :=
  ⟨demo (runningAt 2 1) [], runningAt_inv 2 1 [] (by decide) (by decide), rfl⟩

/-- A run that ends in `DONE`: a host write, a codec command and the last chunk. -/
theorem witness_InterleavingDoesNotAffectTheKey :
    ∃ s t : State, Inv s ∧ runSteps 3 s = .next t ∧
      (∀ turn ∈ s.pending.take 3, turn ≠ .reset ∧ turn ≠ .wr 0 (encode .init)) ∧ t.engine.phase = .done :=
  ⟨demo (runningAt 2 2) [.wr 6 9, .wr 0 8, .wr 0 3], _, runningAt_inv 2 2 _ (by decide) (by decide), rfl, by decide, rfl⟩

theorem witness_AutoDerivationCompletesByItself :
    ∃ s : State, Inv s ∧ s.pending = [] ∧ s.ctrl.auto = true ∧ s.engine.phase = .running ∧ s.engine.blk = 1 ∧
      s.engine.iter = 0 :=
  ⟨demoAuto (runningAt 1 0) [], auto_inv _ _ (runningAt_inv 1 0 [] (by decide) (by decide)), rfl, rfl, rfl, rfl, rfl⟩

theorem witness_KeysUnderBothMasksAgreeUpToBlock15 : (15 : Nat) ≤ 15 := by decide

theorem witness_ConstructionDependsOnTheInputsAlone :
    ∃ s s' : State, s.engine ≠ s'.engine ∧ outcomeCode .init s = .ok ∧ outcomeCode .init s' = .ok ∧
      s.inputs.iterCount = s'.inputs.iterCount ∧ s.inputs.dkLen = s'.inputs.dkLen ∧
      s.inputs.pwLen = s'.inputs.pwLen ∧ s.inputs.saltLen = s'.inputs.saltLen ∧
      (∀ a, a < s.inputs.pwLen.toNat → readByte s .pw a = readByte s' .pw a) ∧
      (∀ a, a < s.inputs.saltLen.toNat → readByte s .salt a = readByte s' .salt a) :=
  ⟨demo unconfEngine [], demo idleEngine [], by decide, rfl, rfl, rfl, rfl, rfl, rfl, fun _ _ => rfl, fun _ _ => rfl⟩

end Sys2Proof.Tests
end

/-! How one step runs the turn that comes next, and how a command word is decoded. -/

namespace Sys2Proof.Machine

open Sys2Proof

/-- With a turn pending, the step takes it (R70). -/
theorem step_of_pending {s : State} {turn : Turn} {rest : List Turn} (h : s.pending = turn :: rest) :
    step s = takeTurn turn { s with pending := rest } := by
  simp only [step, nextTurn, h]

/-- A write to `CMD` issues a command (R22, R94). -/
theorem takeTurn_wr_cmd (w : Word) (s : State) : takeTurn (.wr 0 w) s = issueCommand w s := rfl

theorem issueCommand_of_decode {w : Word} {i : Instr} (h : decode w = .ok i) (s : State) :
    issueCommand w s = exec i s := by
  simp only [issueCommand, h]

/-- R93, read from the opcode to the command: the opcode map has no other row. -/
theorem opcode_of_instrOfOp {op : BitVec 4} {i : Instr} (h : instrOfOp op = some i) : opcode i = op := by
  unfold instrOfOp at h
  split at h <;> cases h <;> rfl

/-- R94: the only word of a command is its encoding. -/
theorem encode_of_decode {w : Word} {i : Instr} (h : decode w = .ok i) : encode i = w := by
  unfold decode at h
  split at h
  · cases h
  · next hrsv =>
    split at h
    · next hop =>
      cases h
      calc encode i = rsvField w ++ opField w := by
            rw [encode, opcode_of_instrOfOp hop, not_not.mp hrsv]
        _ = w := BitVec.extractLsb'_append_extractLsb' (w := 28) (len := 4)
    · cases h

end Sys2Proof.Machine

/-! Single steps, registers and reset (10_state.md R22, R32, R51, R52). -/

namespace Sys2Proof.Machine

open Sys2Proof

/-- Settles O5: the step is the turn at the head, and a turn that writes `CMD` issues the command. -/
theorem commandWriteRunsItsCommand : Obligations.CommandWriteRunsItsCommand := by
  refine ⟨fun s w rest h => ⟨(step_of_pending h).trans rfl, fun i hd => ?_⟩,
    fun s rest h => (step_of_pending h).trans rfl⟩
  rw [step_of_pending h, takeTurn_wr_cmd, issueCommand_of_decode hd]

/-- A word below `2^n` has no bit at or above `n`. -/
theorem getLsbD_eq_false_of_toNat_lt {w n k : Nat} {x : BitVec w} (h : x.toNat < 2 ^ n) (hk : n ≤ k) :
    x.getLsbD k = false :=
  Nat.testBit_lt_two_pow (h.trans_le (Nat.pow_le_pow_right (by omega) hk))

theorem phaseCode_lt (ph : Phase) : (phaseCode ph).toNat < 2 ^ 2 := by cases ph <;> decide

theorem errCode_lt (c : ErrCode) : (errCode c).toNat < 2 ^ 3 := by cases c <;> decide

theorem autoBit_lt (b : Bool) : (if b then 1 else 0 : Word).toNat < 2 ^ 1 := by cases b <;> decide

theorem irqBits_lt (b : BitVec 3) : (b.setWidth 32).toNat < 2 ^ 3 := by
  rw [BitVec.toNat_setWidth_of_le (by omega)]
  exact b.isLt

/-- R32: register numbers above 17 are unmapped. -/
theorem unmapped_reg (s : State) (v : Word) {r : Nat} (h : 17 < r) : readReg s r = 0 ∧ writeReg s r v = s := by
  obtain ⟨k, rfl⟩ := Nat.exists_eq_add_of_lt h
  rw [show 17 + k + 1 = k + 18 by omega]
  exact ⟨rfl, rfl⟩

/-- Masking to the three stored bits loses nothing that is stored (R26, R27). -/
theorem setWidth_and_seven (v : Word) : (v &&& 7).setWidth 3 = v.setWidth 3 := by
  rw [BitVec.setWidth_and, show (7 : Word).setWidth 3 = BitVec.allOnes 3 from rfl, BitVec.and_allOnes]

/-- R32 for writes: the registers with reserved bits store only their writable bits. -/
theorem writeReg_masked (s : State) (v : Word) :
    writeReg s 2 v = writeReg s 2 (v &&& 1) ∧ writeReg s 4 v = writeReg s 4 (v &&& 7) ∧
      writeReg s 5 v = writeReg s 5 (v &&& 7) := by
  refine ⟨?_, ?_, ?_⟩
  · simp [writeReg]
  · simp only [writeReg, clearIrq, setWidth_and_seven]
  · simp only [writeReg, setWidth_and_seven]

/-- Settles O39: each register's value is below the power of two its storage has. -/
theorem reservedBitsReadZero : Obligations.ReservedBitsReadZero := fun s =>
  ⟨fun _ => getLsbD_eq_false_of_toNat_lt (phaseCode_lt s.engine.phase),
   fun _ => getLsbD_eq_false_of_toNat_lt (autoBit_lt s.ctrl.auto),
   fun _ => getLsbD_eq_false_of_toNat_lt (errCode_lt s.ctrl.err),
   fun _ => getLsbD_eq_false_of_toNat_lt (irqBits_lt s.ctrl.irqStatus),
   fun _ => getLsbD_eq_false_of_toNat_lt (irqBits_lt s.ctrl.irqEnable),
   fun _ v => unmapped_reg s v,
   writeReg_masked s⟩

/-- A conjunction of words is non-zero exactly when the two share a bit. -/
theorem and_ne_zero_iff_exists_bit {w : Nat} (a b : BitVec w) :
    a &&& b ≠ 0 ↔ ∃ k, k < w ∧ a.getLsbD k = true ∧ b.getLsbD k = true := by
  rw [ne_eq, BitVec.eq_of_getLsbD_eq_iff]
  simp

/-- Settles O40: the registers read their three stored bits. -/
theorem irqLineIsPendingAndEnabled : Obligations.IrqLineIsPendingAndEnabled := by
  intro s
  have hread (k : Nat) (b : BitVec 3) (hk : k < 3) : (b.setWidth 32).getLsbD k = b.getLsbD k := by
    rw [BitVec.getLsbD_setWidth, decide_eq_true (by omega), Bool.true_and]
  rw [irqLine, bne_iff_ne, and_ne_zero_iff_exists_bit]
  refine exists_congr fun k => and_congr_right fun hk => ?_
  rw [readReg, readReg, hread k _ hk, hread k _ hk]

theorem irqLine_of_nothing_pending {s : State} (h : s.ctrl.irqStatus = 0) : irqLine s = false := by
  simp [irqLine, h]

/-- Settles O45: reset writes each stated value, in any state; `irq` is 0 as nothing is pending. -/
theorem resetValues : Obligations.ResetValues := by
  refine ⟨?_, fun s rest h => ⟨_, step_of_pending h, ?_, rfl, rfl⟩⟩
  · exact ⟨rfl, rfl, rfl, rfl, rfl, rfl, rfl, rfl, rfl, rfl, rfl, rfl, rfl, rfl, rfl, rfl, rfl, rfl, rfl, rfl, rfl,
      irqLine_of_nothing_pending rfl⟩
  · exact ⟨rfl, rfl, rfl, rfl, rfl, rfl, rfl, rfl, rfl, rfl, rfl, rfl, rfl, rfl, rfl, rfl, rfl, rfl, rfl, rfl, rfl,
      irqLine_of_nothing_pending rfl⟩

end Sys2Proof.Machine

/-! The invariant of the engine through a block: iterations, the completion of a block, the end of a derivation
(10_state.md R30, R43, R47; 43_engine_run.md R186 to R190). -/

namespace Sys2Proof.Machine

open Sys2Proof

/-! ### The parts of the engine that only `INIT` and reset write -/

/-- The pads and the latched parameters agree (R33, R36). -/
structure SameConstruction (e e' : Engine) : Prop extends SameKey e e' where
  c : e.c = e'.c
  dkLen : e.dkLen = e'.dkLen
  blocks : e.blocks = e'.blocks

theorem SameConstruction.refl (e : Engine) : SameConstruction e e := ⟨⟨rfl, rfl, rfl⟩, rfl, rfl, rfl⟩

theorem SameConstruction.of_eq {e e' : Engine} (h : e = e') : SameConstruction e e' := h ▸ .refl e

theorem iterations_sameConstruction (mask : IdxMask) (n : Nat) (e : Engine) :
    SameConstruction (iterations mask n e) e :=
  have h := iterations_same mask n e
  ⟨h.toSameKey, h.c, h.dkLen, h.blocks⟩

theorem chunk_sameConstruction (s : State) : SameConstruction (chunk s).engine s.engine :=
  have h := chunk_frame s
  ⟨h.toSameKey, h.c, h.dkLen, h.blocks⟩

theorem Constructed.congr {p : Params} {e e' : Engine} (h : Constructed p e) (hs : SameConstruction e' e) :
    Constructed p e' where
  cPos := hs.c ▸ h.cPos
  dkPos := hs.dkLen ▸ h.dkPos
  dkFits := hs.dkLen ▸ h.dkFits
  blocksEq := hs.dkLen ▸ hs.blocks ▸ h.blocksEq
  saltFits := hs.saltL ▸ h.saltFits

/-- The bytes of the key fit into `BLOCKS` blocks. -/
theorem Constructed.dkLen_le {p : Params} {e : Engine} (h : Constructed p e) :
    e.dkLen.toNat ≤ e.blocks.toNat * 20 :=
  (divUp_le_iff (by omega)).mp h.blocksEq.ge

/-- Every block but the last is full. -/
theorem Constructed.lt_dkLen {p : Params} {e : Engine} (h : Constructed p e) {i : Nat} (hi : i < e.blocks.toNat) :
    i * 20 < e.dkLen.toNat :=
  (lt_divUp_iff (by omega)).mp (h.blocksEq ▸ hi)

theorem Constructed.blocksPos {p : Params} {e : Engine} (h : Constructed p e) : 1 ≤ e.blocks.toNat := by
  have := h.dkPos
  have := h.dkLen_le
  omega

/-! ### The characters of `RESULT` -/

/-- With nothing valid in `RESULT` there is nothing to agree with. -/
theorem resultInv_of_empty (p : Params) {e : Engine} (h : e.resultLen = 0) : resultInv p e := by
  simp [resultInv, h]

theorem resultInv.congr {p : Params} {e e' : Engine} (h : resultInv p e) (hs : SameConstruction e' e)
    (hr : e'.result = e.result) (hl : e'.resultLen = e.resultLen) : resultInv p e' := by
  rw [resultInv, hr, hl, hs.blocks, blocksHex_congr hs.toSameKey hs.c]
  exact h

/-- Writing right behind the known elements makes them one longer sequence. -/
theorem lookup_storeSeq_append {α : Type} {m : Memory α} {xs : List α} {n : Nat} (hm : m.wf)
    (h : (List.range n).map m.lookup = xs.map some) (vs : List α) :
    (List.range (n + vs.length)).map (m.storeSeq n vs).lookup = (xs ++ vs).map some := by
  have hold : (List.range n).map (m.storeSeq n vs).lookup = xs.map some := by
    rw [← h]
    refine List.map_congr_left fun k hk => ?_
    rw [lookup_storeSeq _ _ _ _ hm, if_neg (by have := List.mem_range.mp hk; omega)]
  have hnew : ((List.range vs.length).map (n + ·)).map (m.storeSeq n vs).lookup = vs.map some := by
    refine List.ext_getElem (by simp) fun k hk _ => ?_
    have hk : k < vs.length := by simpa using hk
    simp [lookup_storeSeq _ _ _ _ hm, hk]
  rw [List.range_add, List.map_append, hold, hnew, List.map_append]

theorem blocksHex_succ (mask : IdxMask) (e : Engine) (n : Nat) :
    blocksHex mask e (n + 1) =
      blocksHex mask e n ++ bhex (tRef mask e (BitVec.ofNat 32 (n + 1)) e.c.toNat).words := by
  simp [blocksHex, List.range_succ]

/-- The key cut inside or at the end of block `m + 1`: `m` whole blocks and the beginning of the next (R197). -/
theorem take_blocksHex (mask : IdxMask) (e : Engine) {m n k : Nat} (hm : m < n) (hk : k ≤ 40) :
    (blocksHex mask e n).take (40 * m + k) =
      blocksHex mask e m ++ (bhex (tRef mask e (BitVec.ofNat 32 (m + 1)) e.c.toNat).words).take k := by
  induction n, hm using Nat.le_induction with
  | base =>
    rw [blocksHex_succ, List.take_append, length_blocksHex, Nat.add_sub_cancel_left,
      List.take_of_length_le (by rw [length_blocksHex]; omega)]
  | succ n hmn ih =>
    rw [blocksHex_succ, List.take_append_of_le_length (by rw [length_blocksHex]; omega), ih]

/-! ### Within a block -/

/-- The engine of a running derivation anywhere within a block, its end included (R30, R47). -/
structure InBlock (p : Params) (e : Engine) : Prop where
  constructed : Constructed p e
  blkPos : 1 ≤ e.blk.toNat
  blkLe : e.blk.toNat ≤ e.blocks.toNat
  iterLe : e.iter.toNat ≤ e.c.toNat
  resultLen : e.resultLen = 40 * (e.blk.toNat - 1)
  elapsed : e.elapsed = 0
  chain : OnChain p.idxMask e

/-- `RUNNING` rests within a block, before its end. -/
theorem phaseInv_running_iff {p : Params} {e : Engine} (hr : e.phase = .running) :
    phaseInv p e ↔ InBlock p e ∧ e.iter.toNat < e.c.toNat := by
  simp only [phaseInv, hr]
  constructor
  · rintro ⟨hc, hb1, hb2, hi, hl, hel, ht, hu⟩
    exact ⟨⟨hc, hb1, hb2, hi.le, hl, hel, ht, hu⟩, hi⟩
  · rintro ⟨⟨hc, hb1, hb2, _, hl, hel, ht, hu⟩, hi⟩
    exact ⟨hc, hb1, hb2, hi, hl, hel, ht, hu⟩

theorem iterations_inBlock {p : Params} {e : Engine} (h : InBlock p e) {n : Nat}
    (hn : e.iter.toNat + n ≤ e.c.toNat) : InBlock p (iterations p.idxMask n e) := by
  have hs := iterations_same p.idxMask n e
  have hlt : e.iter.toNat + n < 2 ^ 32 := hn.trans_lt e.c.isLt
  exact {
    constructed := h.constructed.congr (iterations_sameConstruction _ _ _)
    blkPos := hs.blk ▸ h.blkPos
    blkLe := hs.blk ▸ hs.blocks ▸ h.blkLe
    iterLe := by rw [iterations_iter _ _ _ hlt, hs.c]; exact hn
    resultLen := by rw [hs.resultLen, hs.blk, h.resultLen]
    elapsed := hs.elapsed.trans h.elapsed
    chain := iterations_onChain _ _ _ h.chain hlt }

theorem isLastBlock_iff (e : Engine) : isLastBlock e = true ↔ e.blk = e.blocks := beq_iff_eq

/-- A block keeps at most its forty characters (R189). -/
theorem InBlock.keepChars_le {p : Params} {e : Engine} (h : InBlock p e) : keepChars e ≤ 40 := by
  have := h.constructed.dkLen_le
  have := h.constructed.blocksPos
  unfold keepChars
  split <;> omega

/-- `RESULT_LEN` after the last block. -/
theorem InBlock.resultLen_add_keepChars_last {p : Params} {e : Engine} (h : InBlock p e)
    (hlast : isLastBlock e = true) : e.resultLen + keepChars e = 2 * e.dkLen.toNat := by
  have := h.constructed.lt_dkLen (i := e.blocks.toNat - 1) (by have := h.constructed.blocksPos; omega)
  rw [keepChars, if_pos hlast, h.resultLen, (isLastBlock_iff e).mp hlast]
  omega

/-- `RESULT_LEN` after any other block. -/
theorem InBlock.resultLen_add_keepChars_inner {p : Params} {e : Engine} (h : InBlock p e)
    (hlast : isLastBlock e = false) : e.resultLen + keepChars e = 40 * e.blk.toNat := by
  have := h.blkPos
  rw [keepChars, hlast, h.resultLen]
  simp only [Bool.false_eq_true, if_false]
  omega

theorem InBlock.blk_lt_blocks {p : Params} {e : Engine} (h : InBlock p e) (hlast : isLastBlock e = false) :
    e.blk.toNat < e.blocks.toNat := by
  have hne : e.blk ≠ e.blocks := fun heq => by simp [(isLastBlock_iff e).mpr heq] at hlast
  exact lt_of_le_of_ne h.blkLe (hne ∘ BitVec.eq_of_toNat_eq)

/-- No block writes beyond the characters of the whole key. -/
theorem InBlock.resultLen_add_keepChars_le {p : Params} {e : Engine} (h : InBlock p e) :
    e.resultLen + keepChars e ≤ 2 * e.dkLen.toNat := by
  cases hlast : isLastBlock e with
  | true => exact (h.resultLen_add_keepChars_last hlast).le
  | false =>
    have := h.constructed.lt_dkLen (h.blk_lt_blocks hlast)
    rw [h.resultLen_add_keepChars_inner hlast]
    omega

/-- `BLK` can always count one further (R195). -/
theorem InBlock.toNat_blk_succ {p : Params} {e : Engine} (h : InBlock p e) :
    (e.blk + 1).toNat = e.blk.toNat + 1 := by
  have hblk := h.blkLe
  have hlt := h.constructed.lt_dkLen (i := e.blocks.toNat - 1) (by have := h.constructed.blocksPos; omega)
  have := e.dkLen.isLt
  rw [BitVec.toNat_add, show (1 : Word).toNat = 1 from rfl]
  omega

/-! ### The engine's part of the invariant -/

/-- What `Inv` says of the engine. -/
structure EngineInv (p : Params) (e : Engine) : Prop where
  result : memoryInv (byteSize p .result) e.result
  phase : phaseInv p e
  resultPrefix : resultInv p e

theorem inSpace_result_of_dkFits {p : Params} {n : Nat} (h : fits p.dkMax n = true) {a : Nat} (ha : a < 2 * n) :
    inSpace (byteSize p .result) a = true := by
  cases hm : p.dkMax with
  | none => simp [byteSize, hm, inSpace]
  | some m =>
    have : n ≤ m := by simpa [hm, fits] using h
    simp only [byteSize, hm, Option.map_some, inSpace, decide_eq_true_eq]
    omega

theorem InBlock.length_kept {p : Params} {e : Engine} (h : InBlock p e) :
    ((bhex e.t.words).take (keepChars e)).length = keepChars e := by
  rw [List.length_take, length_bhex, length_digest_words]
  exact min_eq_left h.keepChars_le

theorem completeBlock_result_memoryInv {p : Params} {e : Engine} (h : InBlock p e)
    (hm : memoryInv (byteSize p .result) e.result) : memoryInv (byteSize p .result) (completeBlock e).result := by
  refine storeSeq_memoryInv _ _ _ _ hm fun k hk => inSpace_result_of_dkFits h.constructed.dkFits ?_
  have := h.resultLen_add_keepChars_le
  rw [h.length_kept] at hk
  omega

/-- The characters a completed block appends are the next ones of the reference (R188, R197). -/
theorem completeBlock_resultInv {p : Params} {e : Engine} (h : InBlock p e) (hi : e.iter = e.c)
    (hm : e.result.wf) (hr : resultInv p e) : resultInv p (completeBlock e) := by
  obtain ⟨m, hblk⟩ : ∃ m, e.blk.toNat = m + 1 := ⟨e.blk.toNat - 1, by have := h.blkPos; omega⟩
  have hlen : e.resultLen = 40 * m := by rw [h.resultLen, hblk, Nat.add_sub_cancel]
  have hm_lt : m < e.blocks.toNat := by have := h.blkLe; omega
  have ht : e.t = tRef p.idxMask e (BitVec.ofNat 32 (m + 1)) e.c.toNat := by
    rw [h.chain.t, hi, ← hblk, BitVec.ofNat_toNat, BitVec.setWidth_eq]
  have hwritten := lookup_storeSeq_append hm hr ((bhex e.t.words).take (keepChars e))
  rw [h.length_kept] at hwritten
  have hs : SameConstruction (completeBlock e) e := ⟨⟨rfl, rfl, rfl⟩, rfl, rfl, rfl⟩
  rw [resultInv, blocksHex_congr hs.toSameKey hs.c]
  refine hwritten.trans (congrArg (List.map some) ?_)
  have hbefore := take_blocksHex p.idxMask e hm_lt (k := 0) (by omega)
  rw [List.take_zero, List.append_nil, Nat.add_zero, ← hlen] at hbefore
  have hafter := take_blocksHex p.idxMask e hm_lt h.keepChars_le
  rw [← hlen, ← ht] at hafter
  exact (congrArg (· ++ _) hbefore).trans hafter.symm

/-- After a block that is not the last one the engine is at the beginning of the next (R188). -/
theorem completeBlock_inner_engineInv {p : Params} {e : Engine} (h : InBlock p e) (hi : e.iter = e.c)
    (hrun : e.phase = .running) (hlast : isLastBlock e = false)
    (hm : memoryInv (byteSize p .result) e.result) (hr : resultInv p e) : EngineInv p (completeBlock e) := by
  have hrun' : (completeBlock e).phase = .running := hrun
  refine ⟨completeBlock_result_memoryInv h hm, (phaseInv_running_iff hrun').mpr ⟨?_, h.constructed.cPos⟩,
    completeBlock_resultInv h hi hm.1 hr⟩
  have hblk : (completeBlock e).blk.toNat = e.blk.toNat + 1 := h.toNat_blk_succ
  exact {
    constructed := h.constructed.congr ⟨⟨rfl, rfl, rfl⟩, rfl, rfl, rfl⟩
    blkPos := by omega
    blkLe := hblk ▸ h.blk_lt_blocks hlast
    iterLe := Nat.zero_le _
    resultLen := by rw [hblk, Nat.add_sub_cancel]; exact h.resultLen_add_keepChars_inner hlast
    elapsed := h.elapsed
    chain := ⟨rfl, fun hne => absurd rfl hne⟩ }

/-- The engine a finished derivation leaves, `ELAPSED` aside (R190, R199). -/
theorem completeBlock_last_engineInv {p : Params} {e : Engine} (h : InBlock p e) (hi : e.iter = e.c)
    (hlast : isLastBlock e = true) (hm : memoryInv (byteSize p .result) e.result) (hr : resultInv p e)
    (elapsed : Word) : EngineInv p { completeBlock e with elapsed := elapsed, phase := .done } := by
  have hs : SameConstruction { completeBlock e with elapsed := elapsed, phase := .done } e :=
    ⟨⟨rfl, rfl, rfl⟩, rfl, rfl, rfl⟩
  have hblk : e.blk = e.blocks := (isLastBlock_iff e).mp hlast
  have hu : e.u = uRef p.idxMask e e.blocks (e.c.toNat - 1) := by
    rw [← hblk, ← hi]
    refine h.chain.u fun hzero => ?_
    have := h.constructed.cPos
    simp [← hi, hzero] at this
  refine ⟨completeBlock_result_memoryInv h hm, ⟨h.constructed.congr hs, ?_, rfl, rfl, ?_, ?_⟩,
    (completeBlock_resultInv h hi hm.1 hr).congr ⟨⟨rfl, rfl, rfl⟩, rfl, rfl, rfl⟩ rfl rfl⟩
  · exact h.toNat_blk_succ.trans (congrArg (·.toNat + 1) hblk)
  · exact h.resultLen_add_keepChars_last hlast
  · exact hu.trans (uRef_congr hs.toSameKey.symm _ _ _)

/-- R47: a chunk keeps the engine's invariant. -/
theorem chunk_engineInv {s : State} (h : EngineInv s.params s.engine) (hrun : s.engine.phase = .running) :
    EngineInv s.params (chunk s).engine := by
  obtain ⟨hin, hlt⟩ := (phaseInv_running_iff hrun).mp h.phase
  have hsame := iterations_same s.params.idxMask (chunkSize s) s.engine
  have hin' : InBlock s.params (chunkProgress s).engine :=
    iterations_inBlock hin (by unfold chunkSize; omega)
  have hrun' : (chunkProgress s).engine.phase = .running := hsame.phase.trans hrun
  have hm : memoryInv (byteSize s.params .result) (chunkProgress s).engine.result := hsame.result.symm ▸ h.result
  have hr : resultInv s.params (chunkProgress s).engine :=
    h.resultPrefix.congr (iterations_sameConstruction _ _ _) hsame.result hsame.resultLen
  rcases chunk_cases s with ⟨hinside, hchunk⟩ | ⟨hend, hchunk⟩
  · rw [hchunk]
    exact ⟨hm, (phaseInv_running_iff hrun').mpr ⟨hin', hinside⟩, hr⟩
  · have hi : (chunkProgress s).engine.iter = (chunkProgress s).engine.c :=
      BitVec.eq_of_toNat_eq (le_antisymm hin'.iterLe (not_lt.mp hend))
    rw [hchunk]
    rcases chunkCompletion_cases (chunkProgress s) with ⟨hlast, hcompl⟩ | ⟨hlast, hcompl⟩
    · rw [hcompl]
      exact completeBlock_inner_engineInv hin' hi hrun' hlast hm hr
    · rw [hcompl]
      exact completeBlock_last_engineInv hin' hi hlast hm hr _

end Sys2Proof.Machine

/-! Every transition keeps the invariant, the engine's part and the rest (10_state.md R47). -/

namespace Sys2Proof.Machine

open Sys2Proof

theorem Inv.engineInv {s : State} (h : Inv s) : EngineInv s.params s.engine := ⟨h.result, h.phase, h.resultPrefix⟩

/-- A transition of the engine alone. -/
theorem Inv.withEngine {s t : State} (h : Inv s) (hp : t.params = s.params) (hi : t.inputs = s.inputs)
    (hc : t.codec = s.codec) (he : EngineInv s.params t.engine) : Inv t where
  params := hp ▸ h.params
  pw := hp ▸ hi ▸ h.pw
  salt := hp ▸ hi ▸ h.salt
  result := hp ▸ he.result
  cb := hp ▸ hc ▸ h.cb
  cw := hp ▸ hc ▸ h.cw
  cwBits := hc ▸ h.cwBits
  phase := hp ▸ he.phase
  resultPrefix := hp ▸ he.resultPrefix

/-- The control registers, the recorded outputs and the bookkeeping are not in the invariant. -/
theorem Inv.congr {s t : State} (h : Inv s) (hp : t.params = s.params) (hi : t.inputs = s.inputs)
    (hc : t.codec = s.codec) (he : t.engine = s.engine) : Inv t :=
  h.withEngine hp hi hc (he ▸ h.engineInv)

theorem accept_inv {s : State} (h : Inv s) : Inv (accept s) := h.congr rfl rfl rfl rfl

theorem reject_inv {s : State} (h : Inv s) (code : ErrCode) : Inv (reject code s) := h.congr rfl rfl rfl rfl

/-! ### Reset -/

theorem memoryInv_nil {α : Type} (size : Option Nat) : memoryInv size ([] : Memory α) :=
  ⟨List.Pairwise.nil, fun _ hx => absurd hx List.not_mem_nil⟩

theorem atReset_inv {p : Params} (hp : p.wellFormed = true) (env resets : Nat) : Inv (State.atReset p env resets) where
  params := hp
  pw := memoryInv_nil _
  salt := memoryInv_nil _
  result := memoryInv_nil _
  cb := memoryInv_nil _
  cw := memoryInv_nil _
  cwBits := Nat.zero_le _
  phase := ⟨rfl, rfl, rfl, rfl, rfl, rfl, rfl, rfl⟩
  resultPrefix := resultInv_of_empty p rfl

/-- Settles O46: the parameters at power-on are ones R7 allows. -/
theorem invariantHoldsAtReset : Obligations.InvariantHoldsAtReset := atReset_inv rfl 0 0

theorem resetBlock_inv {s : State} (h : Inv s) : Inv (resetBlock s) :=
  (atReset_inv h.params s.env (s.resets + 1)).congr rfl rfl rfl rfl

/-! ### Host accesses -/

/-- A register write leaves `CW_BITS` or puts a 32-bit value there. -/
theorem writeReg_cwBits (s : State) (r : Nat) (v : Word) :
    (writeReg s r v).codec.cwBits = s.codec.cwBits ∨ (writeReg s r v).codec.cwBits = v.toNat := by
  unfold writeReg
  split <;> simp

theorem writeReg_inv {s : State} (h : Inv s) (r : Nat) (v : Word) : Inv (writeReg s r v) := by
  have hf := writeReg_frame s r v
  exact {
    params := hf.params ▸ h.params
    pw := hf.params ▸ hf.pw ▸ h.pw
    salt := hf.params ▸ hf.salt ▸ h.salt
    result := hf.params ▸ hf.engine ▸ h.result
    cb := hf.params ▸ hf.cb ▸ h.cb
    cw := hf.params ▸ hf.cw ▸ h.cw
    cwBits := by
      have := h.cwBits
      have := v.isLt
      rcases writeReg_cwBits s r v with heq | heq <;> rw [heq] <;> omega
    phase := hf.params ▸ hf.engine ▸ h.phase
    resultPrefix := hf.params ▸ hf.engine ▸ h.resultPrefix }

theorem Inv.memory {s : State} (h : Inv s) (space : ByteSpace) :
    memoryInv (byteSize s.params space) (byteMem s space) := by
  cases space with
  | pw => exact h.pw
  | salt => exact h.salt
  | result => exact h.result
  | cb => exact h.cb

theorem hostWriteByte_cw (s : State) (space : ByteSpace) (a : Nat) (b : Byte) :
    (hostWriteByte s space a b).codec.cw = s.codec.cw := by
  unfold hostWriteByte
  split
  · cases space <;> rfl
  · rfl

theorem hostWriteByte_inv {s : State} (h : Inv s) (space : ByteSpace) (a : Nat) (b : Byte) :
    Inv (hostWriteByte s space a b) := by
  have hf := hostWriteByte_frame s space a b
  have hmem (space' : ByteSpace) := hostWriteByte_memoryInv s space space' a b (h.memory space')
  exact {
    params := hf.params ▸ h.params
    pw := hf.params ▸ hmem .pw
    salt := hf.params ▸ hmem .salt
    result := hf.params ▸ hmem .result
    cb := hf.params ▸ hmem .cb
    cw := by rw [hostWriteByte_cw, hf.params]; exact h.cw
    cwBits := hf.cwBits ▸ h.cwBits
    phase := hf.params ▸ hf.engine ▸ h.phase
    resultPrefix := hf.params ▸ hf.engine ▸ h.resultPrefix }

/-- A transition of the codec alone. -/
theorem Inv.withCodec {s : State} (h : Inv s) {c : Codec} (hcb : memoryInv s.params.cbMax c.cb)
    (hcw : memoryInv (cwSize s.params) c.cw) (hbits : c.cwBits ≤ 8 * (2 ^ 32 - 1)) : Inv { s with codec := c } :=
  { h with cb := hcb, cw := hcw, cwBits := hbits }

theorem hostWriteCw_inv {s : State} (h : Inv s) (a : Nat) (w : Word) : Inv (hostWriteCw s a w) := by
  have hcw := hostWriteCw_memoryInv s a w h.cw
  unfold hostWriteCw at hcw ⊢
  split
  · next hin =>
    rw [if_pos hin] at hcw
    exact h.withCodec h.cb hcw h.cwBits
  · exact h

/-! ### The engine's own step and the commands -/

theorem chunk_inv {s : State} (h : Inv s) (hrun : s.engine.phase = .running) : Inv (chunk s) :=
  have hf := chunk_frame s
  h.withEngine hf.params hf.inputs hf.codec (chunk_engineInv h.engineInv hrun)

theorem engineTurn_cases (s : State) :
    (s.engine.phase = .running ∧ engineTurn s = chunk s) ∨ engineTurn s = s := by
  unfold engineTurn
  split
  · next hen =>
    simp only [engineEnabled, Bool.and_eq_true, decide_eq_true_eq] at hen
    exact .inl ⟨hen.2, rfl⟩
  · exact .inr rfl

theorem engineTurn_inv {s : State} (h : Inv s) : Inv (engineTurn s) := by
  rcases engineTurn_cases s with ⟨hrun, heq⟩ | heq <;> rw [heq]
  · exact chunk_inv h hrun
  · exact h

theorem one_le_toNat_of_ne_zero {w : Word} (h : w ≠ 0) : 1 ≤ w.toNat :=
  Nat.one_le_iff_ne_zero.mpr fun hz => h (BitVec.eq_of_toNat_eq hz)

/-- What the checks of `INIT` establish (R161, R168). -/
theorem constructEngine_constructed {s : State} (hpar : initParamBad s = false) (hlen : initLengthsFit s = true) :
    Constructed s.params (constructEngine s) := by
  simp only [initParamBad, Bool.or_eq_false_iff, beq_eq_false_iff_ne] at hpar
  simp only [initLengthsFit, Bool.and_eq_true] at hlen
  obtain ⟨hc, hdk⟩ := hpar
  obtain ⟨⟨_, hsalt⟩, hdkFits⟩ := hlen
  exact {
    cPos := one_le_toNat_of_ne_zero hc
    dkPos := one_le_toNat_of_ne_zero hdk
    dkFits := hdkFits
    blocksEq := by
      have hle : divUp s.inputs.dkLen.toNat 20 ≤ 2 ^ 32 - 1 :=
        (divUp_le_iff (by omega)).mpr (by have := s.inputs.dkLen.isLt; omega)
      exact (BitVec.toNat_ofNat _ _).trans (Nat.mod_eq_of_lt (by omega))
    saltFits := (congrArg (fits s.params.saltMax) (length_readBytes s .salt 0 _)).trans hsalt }

/-- R161: construction leaves an idle engine. -/
theorem constructEngine_engineInv {s : State} (h : Inv s) (hpar : initParamBad s = false)
    (hlen : initLengthsFit s = true) : EngineInv s.params (constructEngine s) :=
  ⟨h.result, ⟨constructEngine_constructed hpar hlen, rfl, rfl, rfl, rfl, rfl⟩, resultInv_of_empty _ rfl⟩

/-- R181: an idle engine that starts is at the beginning of the first block. -/
theorem start_engineInv {p : Params} {e : Engine} (h : EngineInv p e) (hidle : e.phase = .idle) (t0 : Word) :
    EngineInv p { e with t0 := t0, phase := .running } := by
  have hphase := h.phase
  simp only [phaseInv, hidle] at hphase
  obtain ⟨hc, hblk, hiter, ht, hlen, hel⟩ := hphase
  refine ⟨h.result, (phaseInv_running_iff rfl).mpr ⟨?_, ?_⟩, resultInv_of_empty _ hlen⟩
  · exact {
      constructed := hc.congr ⟨⟨rfl, rfl, rfl⟩, rfl, rfl, rfl⟩
      blkPos := by simp [hblk]
      blkLe := by simpa [hblk] using hc.blocksPos
      iterLe := by simp [hiter]
      resultLen := by simp [hblk, hlen]
      elapsed := hel
      chain := ⟨by simp [ht, hiter, tRef], fun hne => absurd hiter hne⟩ }
  · exact (congrArg BitVec.toNat hiter).trans_lt hc.cPos

/-- R193: an aborted derivation leaves what construction left. -/
theorem abortEngine_engineInv {p : Params} {e : Engine} (h : EngineInv p e) (hrun : e.phase = .running) :
    EngineInv p (abortEngine e) := by
  obtain ⟨hin, _⟩ := (phaseInv_running_iff hrun).mp h.phase
  exact ⟨h.result, ⟨hin.constructed.congr ⟨⟨rfl, rfl, rfl⟩, rfl, rfl, rfl⟩, rfl, rfl, rfl, rfl, hin.elapsed⟩,
    resultInv_of_empty _ rfl⟩

theorem packCodec_cwBits_le (s : State) : (packCodec s).cwBits ≤ 8 * (2 ^ 32 - 1) :=
  Nat.mul_le_mul_left 8 (by have := s.codec.cbLen.isLt; omega)

/-- Every command keeps the invariant. -/
theorem exec_inv {i : Instr} {s t : State} (h : Inv s) (he : exec i s = .next t) : Inv t := by
  cases i with
  | init =>
    rcases execInit_cases he with ⟨_, rfl⟩ | ⟨_, _, rfl⟩ | ⟨_, _, _, rfl⟩ | ⟨_, hpar, hlen, rfl⟩
    · exact reject_inv h _
    · exact reject_inv h _
    · exact reject_inv h _
    · exact h.withEngine rfl rfl rfl (constructEngine_engineInv h hpar hlen)
  | start =>
    rcases execStart_cases he with ⟨hidle, rfl⟩ | ⟨_, rfl⟩
    · exact h.withEngine rfl rfl rfl (start_engineInv h.engineInv hidle _)
    · exact reject_inv h _
  | step =>
    rcases execStep_cases he with ⟨hrun, rfl⟩ | ⟨_, rfl⟩
    · exact accept_inv (chunk_inv h hrun)
    · exact reject_inv h _
  | abort =>
    rcases execAbort_cases he with ⟨hrun, rfl⟩ | ⟨_, rfl⟩
    · exact h.withEngine rfl rfl rfl (abortEngine_engineInv h.engineInv hrun)
    · exact reject_inv h _
  | pack =>
    rcases execPack_cases he with ⟨hfit, rfl⟩ | ⟨_, rfl⟩
    · exact accept_inv (h.withCodec (c := packCodec s) h.cb (packCodec_memoryInv s hfit h.cw) (packCodec_cwBits_le s))
    · exact reject_inv h _
  | unpack =>
    rcases execUnpack_cases he with ⟨hfit, rfl⟩ | ⟨_, rfl⟩
    · exact accept_inv (h.withCodec (c := unpackCodec s) (unpackCodec_memoryInv s hfit h.cb) h.cw h.cwBits)
    · exact reject_inv h _

/-- Every turn keeps the invariant. -/
theorem takeTurn_inv {turn : Turn} {s t : State} (h : Inv s) (ht : takeTurn turn s = .next t) : Inv t := by
  rcases takeTurn_cases ht with ⟨r, rfl⟩ | ⟨r, v, _, _, rfl⟩ | ⟨space, a, b, _, rfl⟩ | ⟨a, w, _, rfl⟩ | ⟨_, rfl⟩ |
    ⟨_, rfl⟩ | ⟨w, _, rfl⟩ | ⟨w, i, _, _, hexec⟩
  · exact h.congr rfl rfl rfl rfl
  · exact writeReg_inv h r v
  · exact hostWriteByte_inv h space a b
  · exact hostWriteCw_inv h a w
  · exact engineTurn_inv h
  · exact resetBlock_inv h
  · exact reject_inv h _
  · exact exec_inv h hexec

/-- Settles O47: the step is the engine's own or the next turn, and each of them keeps the invariant. -/
theorem everyStepKeepsTheInvariant : Obligations.EveryStepKeepsTheInvariant := by
  intro s t h hstep
  rcases step_cases hstep with ⟨_, rfl⟩ | ⟨turn, rest, _, ht⟩
  · exact engineTurn_inv h
  · exact takeTurn_inv (s := { s with pending := rest }) (h.congr rfl rfl rfl rfl) ht

end Sys2Proof.Machine

/-! Who changes the parameters and the construction (00_scope.md R7; 10_state.md R33, R36, R38). -/

namespace Sys2Proof.Machine

open Sys2Proof

/-- No command changes the parameters (R7). -/
theorem exec_params {i : Instr} {s t : State} (he : exec i s = .next t) : t.params = s.params := by
  cases i with
  | init => rcases execInit_cases he with ⟨_, rfl⟩ | ⟨_, _, rfl⟩ | ⟨_, _, _, rfl⟩ | ⟨_, _, _, rfl⟩ <;> rfl
  | start => rcases execStart_cases he with ⟨_, rfl⟩ | ⟨_, rfl⟩ <;> rfl
  | step =>
    rcases execStep_cases he with ⟨_, rfl⟩ | ⟨_, rfl⟩
    · exact (chunk_frame s).params
    · rfl
  | abort => rcases execAbort_cases he with ⟨_, rfl⟩ | ⟨_, rfl⟩ <;> rfl
  | pack => rcases execPack_cases he with ⟨_, rfl⟩ | ⟨_, rfl⟩ <;> rfl
  | unpack => rcases execUnpack_cases he with ⟨_, rfl⟩ | ⟨_, rfl⟩ <;> rfl

/-- No command but `INIT` changes the construction (R36). -/
theorem exec_sameConstruction {i : Instr} {s t : State} (he : exec i s = .next t) (hi : i ≠ .init) :
    SameConstruction t.engine s.engine := by
  cases i with
  | init => exact absurd rfl hi
  | start => rcases execStart_cases he with ⟨_, rfl⟩ | ⟨_, rfl⟩ <;> exact ⟨⟨rfl, rfl, rfl⟩, rfl, rfl, rfl⟩
  | step =>
    rcases execStep_cases he with ⟨_, rfl⟩ | ⟨_, rfl⟩
    · exact chunk_sameConstruction s
    · exact .refl _
  | abort => rcases execAbort_cases he with ⟨_, rfl⟩ | ⟨_, rfl⟩ <;> exact ⟨⟨rfl, rfl, rfl⟩, rfl, rfl, rfl⟩
  | pack => rcases execPack_cases he with ⟨_, rfl⟩ | ⟨_, rfl⟩ <;> exact .refl _
  | unpack => rcases execUnpack_cases he with ⟨_, rfl⟩ | ⟨_, rfl⟩ <;> exact .refl _

theorem engineTurn_params (s : State) : (engineTurn s).params = s.params := by
  rcases engineTurn_cases s with ⟨_, heq⟩ | heq <;> rw [heq]
  exact (chunk_frame s).params

theorem engineTurn_sameConstruction (s : State) : SameConstruction (engineTurn s).engine s.engine := by
  rcases engineTurn_cases s with ⟨_, heq⟩ | heq <;> rw [heq]
  · exact chunk_sameConstruction s
  · exact .refl _

theorem takeTurn_params {turn : Turn} {s t : State} (ht : takeTurn turn s = .next t) : t.params = s.params := by
  rcases takeTurn_cases ht with ⟨r, rfl⟩ | ⟨r, v, _, _, rfl⟩ | ⟨space, a, b, _, rfl⟩ | ⟨a, w, _, rfl⟩ | ⟨_, rfl⟩ |
    ⟨_, rfl⟩ | ⟨w, _, rfl⟩ | ⟨w, i, _, _, hexec⟩
  · rfl
  · exact (writeReg_frame s r v).params
  · exact (hostWriteByte_frame s space a b).params
  · exact (hostWriteCw_frame s a w).params
  · exact engineTurn_params s
  · rfl
  · rfl
  · exact exec_params hexec

/-- A turn other than reset and a write of `INIT`'s word keeps the construction; any other word decodes to another
command. -/
theorem takeTurn_sameConstruction {turn : Turn} {s t : State} (ht : takeTurn turn s = .next t)
    (hreset : turn ≠ .reset) (hinit : turn ≠ .wr 0 (encode .init)) : SameConstruction t.engine s.engine := by
  rcases takeTurn_cases ht with ⟨r, rfl⟩ | ⟨r, v, _, _, rfl⟩ | ⟨space, a, b, _, rfl⟩ | ⟨a, w, _, rfl⟩ | ⟨_, rfl⟩ |
    ⟨hturn, _⟩ | ⟨w, _, rfl⟩ | ⟨w, i, rfl, hdecode, hexec⟩
  · exact .refl _
  · exact .of_eq (writeReg_frame s r v).engine
  · exact .of_eq (hostWriteByte_frame s space a b).engine
  · exact .of_eq (hostWriteCw_frame s a w).engine
  · exact engineTurn_sameConstruction s
  · exact absurd hturn hreset
  · exact .refl _
  · refine exec_sameConstruction hexec ?_
    rintro rfl
    exact hinit (by rw [encode_of_decode hdecode])

theorem step_params {s t : State} (h : step s = .next t) : t.params = s.params := by
  rcases step_cases h with ⟨_, rfl⟩ | ⟨turn, rest, _, ht⟩
  · exact engineTurn_params s
  · exact takeTurn_params (s := { s with pending := rest }) ht

theorem step_sameConstruction {s t : State} (h : step s = .next t) (hreset : s.pending.head? ≠ some .reset)
    (hinit : s.pending.head? ≠ some (.wr 0 (encode .init))) : SameConstruction t.engine s.engine := by
  rcases step_cases h with ⟨_, rfl⟩ | ⟨turn, rest, hp, ht⟩
  · exact engineTurn_sameConstruction s
  · rw [hp, List.head?_cons] at hreset hinit
    exact takeTurn_sameConstruction (s := { s with pending := rest }) ht (hreset ∘ congrArg some) (hinit ∘ congrArg some)

/-- Settles O48: each turn but those two leaves the construction, and no turn at all writes the parameters. -/
theorem onlyInitAndResetChangeTheConstruction : Obligations.OnlyInitAndResetChangeTheConstruction := by
  intro s t h
  refine ⟨step_params h, fun hreset hinit => ?_⟩
  have hs := step_sameConstruction h hreset hinit
  exact ⟨hs.ipad, hs.opad, hs.c, hs.dkLen, hs.saltL, hs.blocks⟩

end Sys2Proof.Machine

/-! Host accesses to the registers and buffers (20_memory.md R61 to R66). -/

namespace Sys2Proof.Machine

open Sys2Proof

/-! ### Register reads and writes -/

/-- R61: the turn `RD r` records the register's value. -/
theorem step_of_rd {s : State} {r : Nat} {rest : List Turn} (h : s.pending = .rd r :: rest) :
    step s = .next { s with pending := rest, replies := s.replies ++ [.reg r (readReg s r)] } :=
  step_of_pending h

/-- Settles O37: the value of each clause is the one `readReg` gives, narrower fields widened and naturals cut to 32 bits. -/
theorem registerReadReturnsAndChangesNothing : Obligations.RegisterReadReturnsAndChangesNothing := by
  intro s r rest h
  have hwiden (b : BitVec 3) : (b.setWidth 32).toNat = b.toNat := BitVec.toNat_setWidth_of_le (by omega)
  refine ⟨readReg s r, step_of_rd h, ?_⟩
  refine ⟨?cmd, ?status, ?ctrl, ?err, ?irqStatus, ?irqEnable, ?iterCount, ?dkLen, ?pwLen, ?saltLen, ?blocks, ?blk, ?iter,
    ?resultLen, ?elapsed, ?ipc, ?cbLen, ?cwBits, ?unmapped⟩
  case unmapped => exact fun hr => (unmapped_reg s 0 hr).1
  all_goals rintro rfl
  case irqStatus | irqEnable => exact hwiden _
  case resultLen | ipc | cwBits => exact BitVec.toNat_ofNat _ _
  all_goals rfl

/-- R62: a write to a register other than `CMD` is `writeReg`. -/
theorem step_of_wr {s : State} {r : Nat} {v : Word} {rest : List Turn} (h : s.pending = .wr r v :: rest) (hr : r ≠ 0) :
    step s = .next (writeReg { s with pending := rest } r v) := by
  rw [step_of_pending h, takeTurn, if_neg hr]

/-- R94, R95: an illegal word is rejected. -/
theorem issueCommand_of_decode_error {w : Word} {e : DecodeError} (h : decode w = .error e) (s : State) :
    issueCommand w s = .next (reject .illegalCmd s) := by
  simp only [issueCommand, h]

/-- R62, field by field: each writable register in terms of the number written. -/
theorem writeReg_eq (s : State) (r : Nat) (v : Word) :
    writeReg s r v =
      { s with
        ctrl := { s.ctrl with
          auto := if r = 2 then v.getLsbD 0 else s.ctrl.auto
          irqStatus := if r = 4 then s.ctrl.irqStatus &&& ~~~(v.setWidth 3) else s.ctrl.irqStatus
          irqEnable := if r = 5 then v.setWidth 3 else s.ctrl.irqEnable }
        inputs := { s.inputs with
          iterCount := if r = 6 then v else s.inputs.iterCount
          dkLen := if r = 7 then v else s.inputs.dkLen
          pwLen := if r = 8 then v else s.inputs.pwLen
          saltLen := if r = 9 then v else s.inputs.saltLen }
        codec := { s.codec with
          cbLen := if r = 16 then v else s.codec.cbLen
          cwBits := if r = 17 then v.toNat else s.codec.cwBits } } := by
  unfold writeReg
  split
  case h_10 _ h2 h4 h5 h6 h7 h8 h9 h16 h17 =>
    simp only [if_neg h2, if_neg h4, if_neg h5, if_neg h6, if_neg h7, if_neg h8, if_neg h9, if_neg h16, if_neg h17]
  all_goals rfl

/-- Every register but the written one reads as before. -/
theorem readReg_writeReg_of_ne (s : State) {r r' : Nat} (v : Word) (h : r' ≠ r) :
    readReg (writeReg s r v) r' = readReg s r' := by
  rw [writeReg_eq]
  unfold readReg
  split <;> simp only [h.symm, if_false]

/-- R24: `CTRL` stores bit 0. -/
theorem readReg_writeReg_ctrl (s : State) (v : Word) : readReg (writeReg s 2 v) 2 = v &&& 1 := by
  refine Eq.trans ?_ BitVec.and_one_eq_setWidth_ofBool_getLsbD.symm
  rw [readReg, writeReg]
  cases v.getLsbD 0 <;> rfl

/-- R27: `IRQ_ENABLE` stores bits 2:0. -/
theorem readReg_writeReg_irqEnable (s : State) (v : Word) : readReg (writeReg s 5 v) 5 = v &&& 7 := by
  apply BitVec.eq_of_toNat_eq
  rw [readReg, writeReg, BitVec.toNat_setWidth_of_le (by omega), BitVec.toNat_setWidth, BitVec.toNat_and]
  exact (Nat.and_two_pow_sub_one_eq_mod v.toNat 3).symm

/-- R26: `IRQ_STATUS` loses the bits written as 1; the bits above 2 are 0 before and after. -/
theorem readReg_writeReg_irqStatus (s : State) (v : Word) :
    readReg (writeReg s 4 v) 4 = readReg s 4 &&& ~~~v := by
  ext k hk
  by_cases h3 : k < 3
  · simp [readReg, writeReg, h3, BitVec.getLsbD_eq_getElem hk]
  · simp [readReg, writeReg, h3, BitVec.getLsbD_of_ge s.ctrl.irqStatus k (by omega)]

/-- The `RW` registers without reserved bits read as written. -/
theorem readReg_writeReg_of_rw (s : State) (v : Word) :
    ∀ r ∈ [6, 7, 8, 9, 16, 17], readReg (writeReg s r v) r = v := by
  simp [readReg, writeReg]

theorem writeReg_of_ro (s : State) (v : Word) :
    ∀ r ∈ [1, 3, 10, 11, 12, 13, 14, 15], writeReg s r v = s := by
  simp [writeReg]

/-- No register write reaches a byte space. -/
theorem byteMem_writeReg (s : State) (r : Nat) (v : Word) (space : ByteSpace) :
    byteMem (writeReg s r v) space = byteMem s space := by
  have hf := writeReg_frame s r v
  cases space with
  | pw => exact hf.pw
  | salt => exact hf.salt
  | result => exact congrArg Engine.result hf.engine
  | cb => exact hf.cb

/-- Settles O38: a write to `CMD` issues the command, any other is `writeReg`, whose frame gives what stays. -/
theorem registerWritesByAccessKind : Obligations.RegisterWritesByAccessKind := by
  refine ⟨fun s v rest h => ?_, fun s r v rest h hr => ?_⟩
  · rw [step_of_pending h, takeTurn_wr_cmd]
    exact ⟨fun _ hd => issueCommand_of_decode hd _, fun _ hd => issueCommand_of_decode_error hd _⟩
  · have hf := writeReg_frame { s with pending := rest } r v
    refine ⟨_, step_of_wr h hr, ?_, ?_, ?_, readReg_writeReg_of_rw _ v r, ?_,
      fun _ hne => readReg_writeReg_of_ne _ v hne, hf.engine, hf.events, hf.err,
      fun space => readByte_congr (byteMem_writeReg _ r v space) hf.env hf.resets,
      readCw_congr hf.cw hf.env hf.resets, hf.params, hf.pending, hf.replies⟩
    · rintro rfl; exact readReg_writeReg_ctrl _ v
    · rintro rfl; exact readReg_writeReg_irqEnable _ v
    · rintro rfl; exact readReg_writeReg_irqStatus _ v
    · exact fun h => h.elim (writeReg_of_ro _ v r) fun h => (unmapped_reg _ v h).2

/-! ### Buffer reads and writes -/

/-- Settles O43: a buffer read records what `hostReadByte` or `hostReadCw` gives. -/
theorem bufferReadsChangeNothing : Obligations.BufferReadsChangeNothing :=
  ⟨fun _ _ _ _ h => step_of_pending h, fun _ _ _ h => step_of_pending h⟩

/-- R66: a byte write at or beyond the size of its space does nothing. -/
theorem hostWriteByte_of_outside {s : State} {space : ByteSpace} {a : Nat}
    (h : inSpace (byteSize s.params space) a = false) (b : Byte) : hostWriteByte s space a b = s :=
  if_neg (ne_true_of_eq_false h)

theorem hostWriteCw_of_outside {s : State} {a : Nat} (h : inSpace (cwSize s.params) a = false) (w : Word) :
    hostWriteCw s a w = s :=
  if_neg (ne_true_of_eq_false h)

theorem hostReadByte_of_outside {s : State} {space : ByteSpace} {a : Nat}
    (h : inSpace (byteSize s.params space) a = false) : hostReadByte s space a = 0 :=
  if_neg (ne_true_of_eq_false h)

theorem hostReadCw_of_outside {s : State} {a : Nat} (h : inSpace (cwSize s.params) a = false) : hostReadCw s a = 0 :=
  if_neg (ne_true_of_eq_false h)

/-- R64, R66: a host byte write stores in its own space, unless that is `RESULT` or the index is out of range. -/
theorem byteMem_hostWriteByte (s : State) (space space' : ByteSpace) (a : Nat) (b : Byte) :
    byteMem (hostWriteByte s space a b) space' =
      if space' = space ∧ space ≠ .result ∧ inSpace (byteSize s.params space) a = true then (byteMem s space').store a b
      else byteMem s space' := by
  cases hin : inSpace (byteSize s.params space) a with
  | false => simp [hostWriteByte_of_outside hin]
  | true => cases space <;> cases space' <;> simp [hostWriteByte, hin, byteMem]

theorem readByte_hostWriteByte {s : State} {space : ByteSpace} (hwf : (byteMem s space).wf) (space' : ByteSpace)
    (a a' : Nat) (b : Byte) :
    readByte (hostWriteByte s space a b) space' a' =
      if space' = space ∧ a' = a ∧ space ≠ .result ∧ inSpace (byteSize s.params space) a = true then b
      else readByte s space' a' := by
  have hf := hostWriteByte_frame s space a b
  rw [readByte, byteMem_hostWriteByte, hf.env, hf.resets]
  by_cases hw : space' = space ∧ space ≠ .result ∧ inSpace (byteSize s.params space) a = true
  · rw [if_pos hw]
    obtain ⟨rfl, hres, hin⟩ := hw
    rw [lookup_store _ _ _ _ hwf]
    by_cases ha : a' = a <;> simp [ha, hres, hin, readByte]
  · rw [if_neg hw, if_neg fun ⟨hs, _, hrest⟩ => hw ⟨hs, hrest⟩, readByte]

/-- R63, R64, R66: a host byte read after a host byte write. -/
theorem hostReadByte_hostWriteByte {s : State} {space : ByteSpace} (hwf : (byteMem s space).wf) (space' : ByteSpace)
    (a a' : Nat) (b : Byte) :
    hostReadByte (hostWriteByte s space a b) space' a' =
      if space' = space ∧ a' = a ∧ space ≠ .result ∧ inSpace (byteSize s.params space) a = true then b
      else hostReadByte s space' a' := by
  rw [hostReadByte, (hostWriteByte_frame s space a b).params, readByte_hostWriteByte hwf]
  by_cases hw : space' = space ∧ a' = a ∧ space ≠ .result ∧ inSpace (byteSize s.params space) a = true
  · rw [if_pos hw, if_pos hw]
    obtain ⟨rfl, rfl, _, hin⟩ := hw
    exact if_pos hin
  · rw [if_neg hw, if_neg hw, hostReadByte]

theorem readReg_hostWriteByte (s : State) (space : ByteSpace) (a : Nat) (b : Byte) (r : Nat) :
    readReg (hostWriteByte s space a b) r = readReg s r := by
  unfold hostWriteByte
  split
  · cases space <;> rfl
  · rfl

/-- Settles O41: the turn is `hostWriteByte`, which stores at one index of one space and keeps everything else. -/
theorem byteWriteThenRead : Obligations.ByteWriteThenRead := by
  intro s space a b rest h hwf
  have hf := hostWriteByte_frame { s with pending := rest } space a b
  have hread (space' : ByteSpace) (a' : Nat) :=
    hostReadByte_hostWriteByte (s := { s with pending := rest }) hwf space' a a' b
  refine ⟨_, step_of_pending h, hread, fun hout => ?_, readReg_hostWriteByte _ space a b,
    readCw_congr (hostWriteByte_cw _ space a b) hf.env hf.resets,
    hf.engine, hf.events, hf.ctrl, hf.params, hf.pending, hf.replies⟩
  have hid := hostWriteByte_of_outside (s := { s with pending := rest }) hout b
  exact ⟨hid, by rw [hid]; exact hostReadByte_of_outside hout⟩

/-- R65, R66: a host word read after a host word write. -/
theorem hostReadCw_hostWriteCw {s : State} (hwf : s.codec.cw.wf) (a a' : Nat) (w : Word) :
    hostReadCw (hostWriteCw s a w) a' =
      if a' = a ∧ inSpace (cwSize s.params) a = true then w else hostReadCw s a' := by
  cases hin : inSpace (cwSize s.params) a with
  | false => simp [hostWriteCw_of_outside hin]
  | true =>
    by_cases ha : a' = a <;> simp [hostReadCw, hostWriteCw, readCw, hin, ha, lookup_store _ _ _ _ hwf]

theorem byteMem_hostWriteCw (s : State) (a : Nat) (w : Word) (space : ByteSpace) :
    byteMem (hostWriteCw s a w) space = byteMem s space := by
  unfold hostWriteCw
  split
  · cases space <;> rfl
  · rfl

theorem readReg_hostWriteCw (s : State) (a : Nat) (w : Word) (r : Nat) :
    readReg (hostWriteCw s a w) r = readReg s r := by
  unfold hostWriteCw
  split <;> rfl

/-- Settles O42: the turn is `hostWriteCw`, which stores at one index of `CW` and keeps everything else. -/
theorem wordWriteThenRead : Obligations.WordWriteThenRead := by
  intro s a w rest h hwf
  have hf := hostWriteCw_frame { s with pending := rest } a w
  have hread (a' : Nat) := hostReadCw_hostWriteCw (s := { s with pending := rest }) hwf a a' w
  refine ⟨_, step_of_pending h, hread, fun hout => ?_, readReg_hostWriteCw _ a w,
    fun space => readByte_congr (byteMem_hostWriteCw _ a w space) hf.env hf.resets, hf.engine, hf.events, hf.ctrl⟩
  have hid := hostWriteCw_of_outside (s := { s with pending := rest }) hout w
  exact ⟨hid, by rw [hid]; exact hostReadCw_of_outside hout⟩

end Sys2Proof.Machine

/-! The decoder, the encoder and the opcode table (30_encoding.md R90 to R95, R101). -/

namespace Sys2Proof.Machine

open Sys2Proof

/-! ### Decoding and encoding are inverse -/

/-- R93, R94: the word of a command decodes to it. -/
theorem decode_encode (i : Instr) : decode (encode i) = .ok i := by cases i <;> rfl

theorem decode_eq_ok_iff {w : Word} {i : Instr} : decode w = .ok i ↔ encode i = w :=
  ⟨encode_of_decode, fun h => h ▸ decode_encode i⟩

/-- Settles O2: a word that decodes has the fields its command's encoding has, and the six encodings decode. -/
theorem decodeAndEncodeAgree : Obligations.DecodeAndEncodeAgree := fun _ _ => decode_eq_ok_iff

/-- Settles O1: twelve closed words, each decoded. -/
theorem decodeOfSampleWords : Obligations.DecodeOfSampleWords := by
  unfold Obligations.DecodeOfSampleWords
  decide

/-! ### The decoder written from the table -/

/-- R93, R101: each row of the table fixes all 32 bits, to the encoding of its command. -/
theorem opcodeTable_row : ∀ r ∈ opcodeTable, r.mask = BitVec.allOnes 32 ∧ r.matchBits = encode r.instr := by decide

theorem decodeByTable_encode (i : Instr) : decodeByTable (encode i) = some i := by cases i <;> rfl

theorem encode_of_decodeByTable {w : Word} {i : Instr} (h : decodeByTable w = some i) : encode i = w := by
  obtain ⟨r, hfind, rfl⟩ := Option.map_eq_some_iff.mp h
  obtain ⟨hmask, hmatch⟩ := opcodeTable_row r (List.mem_of_find?_eq_some hfind)
  have hw : w &&& r.mask = r.matchBits := by simpa using List.find?_some hfind
  rw [← hmatch, ← hw, hmask, BitVec.and_allOnes]

/-- Settles O3: both decoders answer a command exactly on its encoding. -/
theorem tableDecoderAgreesWithDecoder : Obligations.TableDecoderAgreesWithDecoder := by
  intro w
  cases hd : decode w with
  | ok i => exact encode_of_decode hd ▸ decodeByTable_encode i
  | error e =>
    refine Option.eq_none_iff_forall_ne_some.mpr fun i hi => ?_
    have hok : decode w = .ok i := decode_eq_ok_iff.mpr (encode_of_decodeByTable hi)
    exact nomatch hd.symm.trans hok

/-! ### Illegal words -/

/-- R95: the reserved values of `OP`. -/
def reservedOps : List (BitVec 4) := [0x0, 0x5, 0x6, 0x7, 0xA, 0xB, 0xC, 0xD, 0xE, 0xF]

/-- R93, R95: the opcode map is undefined exactly on the reserved opcodes. -/
theorem instrOfOp_eq_none_iff : ∀ op : BitVec 4, instrOfOp op = none ↔ op ∈ reservedOps := by decide

/-- R94, R95: a word fails to decode exactly when `RSV` is not 0 or `OP` is reserved. -/
theorem decode_eq_error_iff (w : Word) :
    (∃ e, decode w = .error e) ↔ rsvField w ≠ 0 ∨ opField w ∈ reservedOps := by
  rw [← instrOfOp_eq_none_iff]
  unfold decode
  split
  · next hrsv => exact iff_of_true ⟨_, rfl⟩ (.inl hrsv)
  · next hrsv =>
    split
    · next hop => exact iff_of_false nofun (by simp [hop, not_not.mp hrsv])
    · next hop => exact iff_of_true ⟨_, rfl⟩ (.inr hop)

/-- A word fails to decode exactly when it is the encoding of no command. -/
theorem decode_error_iff_not_encoded (w : Word) : (∃ e, decode w = .error e) ↔ w ∉ Set.range encode := by
  cases hd : decode w with
  | ok i => exact iff_of_false nofun fun hnot => hnot ⟨i, encode_of_decode hd⟩
  | error e =>
    refine iff_of_true ⟨e, rfl⟩ ?_
    rintro ⟨i, rfl⟩
    exact nomatch hd.symm.trans (decode_encode i)

theorem mem_instrAll (i : Instr) : i ∈ Instr.all := by cases i <;> decide

/-- The six commands have six words (R93). -/
theorem ncard_range_encode : (Set.range encode).ncard = 6 := by
  have hrange : Set.range encode = ↑(Instr.all.map encode).toFinset := by
    ext w
    simp [mem_instrAll]
  rw [hrange, Set.ncard_coe_finset]
  decide

theorem card_word : Nat.card Word = 2 ^ 32 := by
  rw [Nat.card_congr BitVec.equivFin.toEquiv, Nat.card_fin]

/-- R95: a write of a word that does not decode takes effect as the rejection alone. -/
theorem step_of_decode_error {s : State} {w : Word} {rest : List Turn} {e : DecodeError}
    (h : s.pending = .wr 0 w :: rest) (hd : decode w = .error e) :
    step s = .next (reject .illegalCmd { s with pending := rest }) := by
  rw [step_of_pending h, takeTurn_wr_cmd, issueCommand_of_decode_error hd]

/-- Settles O4: the words named are those that do not decode, which are all words but the six encodings. -/
theorem illegalWordsAreRejected : Obligations.IllegalWordsAreRejected := by
  refine ⟨fun s w rest hp hw => ?_, ?_⟩
  · obtain ⟨e, hd⟩ := (decode_eq_error_iff w).mpr hw
    exact step_of_decode_error hp hd
  · have hillegal (w : Word) : (rsvField w ≠ 0 ∨ opField w ∈ reservedOps) ↔ w ∈ (Set.range encode)ᶜ :=
      (decode_eq_error_iff w).symm.trans (decode_error_iff_not_encoded w)
    calc _ = Nat.card ↥(Set.range encode)ᶜ := Nat.card_congr (Equiv.subtypeEquivRight hillegal)
      _ = 2 ^ 32 - 6 := by rw [Nat.card_coe_set_eq, Set.ncard_compl, card_word, ncard_range_encode]

end Sys2Proof.Machine

/-! What each command reports: the code of R221 and R223, or acceptance (30_encoding.md R100; 60_exceptions.md R222). -/

namespace Sys2Proof.Machine

open Sys2Proof

/-! ### The outcome code, command by command -/

theorem badLengthCause_init (s : State) : badLengthCause .init s = !initLengthsFit s := by
  simp only [badLengthCause, initLengthsFit, exceeds_eq_not_fits, Bool.not_and]

theorem badLengthCause_pack (s : State) : badLengthCause .pack s = !packLengthFits s :=
  exceeds_eq_not_fits _ _

theorem badLengthCause_unpack (s : State) : badLengthCause .unpack s = !unpackLengthFits s := by
  simp only [badLengthCause, unpackLengthFits, exceeds_eq_not_fits, Bool.not_and, bne]

theorem outcomeCode_init (s : State) :
    outcomeCode .init s = if s.engine.phase = .running then .badPhase else if initParamBad s then .badParam
      else if initLengthsFit s then .ok else .badLength := by
  rw [outcomeCode, badLengthCause_init]
  cases s.engine.phase <;> cases initLengthsFit s <;> rfl

theorem outcomeCode_start (s : State) :
    outcomeCode .start s = if s.engine.phase = .idle then .ok else .badPhase := by
  rw [outcomeCode]
  cases s.engine.phase <;> rfl

theorem outcomeCode_step (s : State) :
    outcomeCode .step s = if s.engine.phase = .running then .ok else .badPhase := by
  rw [outcomeCode]
  cases s.engine.phase <;> rfl

theorem outcomeCode_abort (s : State) :
    outcomeCode .abort s = if s.engine.phase = .running then .ok else .badPhase := by
  rw [outcomeCode]
  cases s.engine.phase <;> rfl

theorem outcomeCode_pack (s : State) : outcomeCode .pack s = if packLengthFits s then .ok else .badLength := by
  rw [outcomeCode, badLengthCause_pack]
  cases packLengthFits s <;> rfl

theorem outcomeCode_unpack (s : State) : outcomeCode .unpack s = if unpackLengthFits s then .ok else .badLength := by
  rw [outcomeCode, badLengthCause_unpack]
  cases unpackLengthFits s <;> rfl

/-- R100, R223: `BAD_PHASE` comes first, and it is the admission table's. -/
theorem outcomeCode_eq_badPhase_iff (i : Instr) (s : State) :
    outcomeCode i s = .badPhase ↔ admitted i s.engine.phase = false := by
  unfold outcomeCode
  split
  · next hadm => exact iff_of_true rfl hadm
  · next hadm =>
    refine iff_of_false ?_ hadm
    split_ifs <;> decide

/-! ### Every command is rejected with its code or accepted -/

/-- Every command answers a next state (R220, R241). -/
theorem exec_answers (i : Instr) (s : State) : ∃ t, exec i s = .next t := by
  cases i with
  | init => rw [exec, execInit]; split_ifs <;> exact ⟨_, rfl⟩
  | start => rw [exec, execStart]; split_ifs <;> exact ⟨_, rfl⟩
  | step => rw [exec, execStep]; split_ifs <;> exact ⟨_, rfl⟩
  | abort => rw [exec, execAbort]; split_ifs <;> exact ⟨_, rfl⟩
  | pack => rw [exec, execPack]; split_ifs <;> exact ⟨_, rfl⟩
  | unpack => rw [exec, execUnpack]; split_ifs <;> exact ⟨_, rfl⟩

/-- R222: a command is rejected with its outcome code, or has none and is accepted. -/
theorem exec_rejected_or_accepted {i : Instr} {s t : State} (he : exec i s = .next t) :
    (outcomeCode i s ≠ .ok ∧ t = reject (outcomeCode i s) s) ∨ (outcomeCode i s = .ok ∧ t.ctrl.err = .ok) := by
  cases i with
  | init =>
    rw [outcomeCode_init]
    rcases execInit_cases he with ⟨hrun, rfl⟩ | ⟨hrun, hpar, rfl⟩ | ⟨hrun, hpar, hlen, rfl⟩ | ⟨hrun, hpar, hlen, rfl⟩ <;>
      simp [*]
  | start =>
    rw [outcomeCode_start]
    rcases execStart_cases he with ⟨hidle, rfl⟩ | ⟨hidle, rfl⟩ <;> simp [hidle]
  | step =>
    rw [outcomeCode_step]
    rcases execStep_cases he with ⟨hrun, rfl⟩ | ⟨hrun, rfl⟩ <;> simp [hrun]
  | abort =>
    rw [outcomeCode_abort]
    rcases execAbort_cases he with ⟨hrun, rfl⟩ | ⟨hrun, rfl⟩ <;> simp [hrun]
  | pack =>
    rw [outcomeCode_pack]
    rcases execPack_cases he with ⟨hfit, rfl⟩ | ⟨hfit, rfl⟩ <;> simp [hfit]
  | unpack =>
    rw [outcomeCode_unpack]
    rcases execUnpack_cases he with ⟨hfit, rfl⟩ | ⟨hfit, rfl⟩ <;> simp [hfit]

/-- `ERR` after a command is its outcome code (R221). -/
theorem exec_err {i : Instr} {s t : State} (he : exec i s = .next t) : t.ctrl.err = outcomeCode i s := by
  rcases exec_rejected_or_accepted he with ⟨_, rfl⟩ | ⟨hcode, herr⟩
  · rfl
  · rw [herr, hcode]

/-- Settles O8: `ERR` is the outcome code, and that is `BAD_PHASE` exactly off the admission table. -/
theorem phaseAdmissionFollowsTheTable : Obligations.PhaseAdmissionFollowsTheTable := by
  intro i s
  obtain ⟨t, he⟩ := exec_answers i s
  have hbad := outcomeCode_eq_badPhase_iff i s
  refine ⟨t, he, exec_err he ▸ hbad, fun hadm => ?_⟩
  have hcode := hbad.mpr hadm
  rcases exec_rejected_or_accepted he with ⟨_, ht⟩ | ⟨hok, _⟩
  · rw [ht, hcode]
  · exact nomatch hcode.symm.trans hok

end Sys2Proof.Machine

/-! The codec commands `PACK` and `UNPACK`, and how they and the engine stay apart (40_codec.md R110 to R117;
70_reset_and_hazards.md R275). -/

namespace Sys2Proof.Machine

open Sys2Proof

/-! ### The bytes of a word sequence -/

/-- Byte `k` of a word sequence, least significant byte first (R114); 0 beyond its words. -/
def leByte (w : List Word) (k : Nat) : Byte := (w.getD (k / 4) 0).extractLsb' (8 * (k % 4)) 8

theorem leByte_of_word (w : List Word) (m : Nat) {q : Nat} (hq : q < 4) :
    leByte w (4 * m + q) = (w.getD m 0).extractLsb' (8 * q) 8 := by
  rw [leByte, show (4 * m + q) / 4 = m by omega, show (4 * m + q) % 4 = q by omega]

theorem leByte_of_beyond {w : List Word} {k : Nat} (h : 4 * w.length ≤ k) : leByte w k = 0 := by
  rw [leByte, List.getD_eq_default _ _ (by omega)]
  exact BitVec.extractLsb'_zero

theorem leByte_take (w : List Word) {n k : Nat} (h : k < 4 * n) : leByte (w.take n) k = leByte w k := by
  rw [leByte, leByte, List.getD_eq_getElem?_getD, List.getElem?_take_of_lt (by omega), List.getD_eq_getElem?_getD]

/-- Two sequences of the same length that agree element by element. -/
theorem list_ext_getD {α : Type} {xs ys : List α} (d : α) (hlen : xs.length = ys.length)
    (h : ∀ k < xs.length, xs.getD k d = ys.getD k d) : xs = ys := by
  refine List.ext_getElem hlen fun k hx hy => ?_
  rw [← List.getD_eq_getElem xs d hx, ← List.getD_eq_getElem ys d hy, h k hx]

/-- Words are their bytes. -/
theorem words_eq_iff_leByte {w w' : List Word} (hlen : w.length = w'.length) :
    w = w' ↔ ∀ k < 4 * w.length, leByte w k = leByte w' k := by
  constructor
  · rintro rfl k _
    rfl
  · intro h
    refine list_ext_getD 0 hlen fun m hm => word_ext _ _ fun q hq => ?_
    rw [← leByte_of_word w m hq, ← leByte_of_word w' m hq]
    exact h _ (by omega)

/-- R111: `lepack` keeps every byte and pads with 0. -/
theorem leByte_lepack (b : List Byte) (k : Nat) : leByte (lepack b) k = b.getD k 0 := by
  by_cases hk : k / 4 < divUp b.length 4
  · rw [leByte, lepack_byte b _ _ hk (by omega), Nat.div_add_mod]
  · have hle : divUp b.length 4 ≤ k / 4 := Nat.le_of_not_lt hk
    have hb := (divUp_le_iff (by omega)).mp hle
    rw [leByte_of_beyond (by rw [length_lepack]; omega), List.getD_eq_default _ _ (by omega)]

/-- R114: `leunpack` keeps the bytes below the bit length. -/
theorem leunpack_getD_leByte (w : List Word) (bits k : Nat) :
    (leunpack w bits).getD k 0 = if k < bits / 8 then leByte w k else 0 :=
  leunpack_getD w bits k

/-- Settles O26: byte by byte, through `lepack` and `leunpack`. -/
theorem unpackOfPackIsIdentity : Obligations.UnpackOfPackIsIdentity := by
  intro b
  have hlen : (leunpack (lepack b) (8 * b.length)).length = b.length := by
    rw [length_leunpack, Nat.mul_div_cancel_left _ (by omega)]
  refine list_ext_getD 0 hlen fun k hk => ?_
  rw [leunpack_getD_leByte, if_pos (by rwa [length_leunpack] at hk), leByte_lepack]

/-- Settles O27: the words packed again have the bytes of `w` below the bit length and 0 from there on. -/
theorem packOfUnpackLosesOnlyPadding : Obligations.PackOfUnpackLosesOnlyPadding := by
  intro w bits hbytes hbits
  have hpacked : (lepack (leunpack w bits)).length = divUp bits 32 := by
    rw [length_lepack, length_leunpack, divUp, divUp]
    omega
  have htaken : (w.take (divUp bits 32)).length = divUp bits 32 :=
    List.length_take_of_le ((divUp_le_iff (by omega)).mpr (by omega))
  rw [words_eq_iff_leByte (hpacked.trans htaken.symm), hpacked]
  refine forall_congr' fun k => ?_
  rw [leByte_lepack, leunpack_getD_leByte]
  -- the padding byte of the statement, by its name
  change _ ↔ (bits ≤ 8 * k → k < 4 * divUp bits 32 → leByte w k = 0)
  by_cases hk : k < bits / 8
  · exact iff_of_true (fun hlt => by rw [if_pos hk, leByte_take w hlt]) fun hge => by omega
  · rw [if_neg hk]
    constructor
    · intro h _ hlt
      rw [h hlt, leByte_take w hlt]
    · intro h hlt
      rw [leByte_take w hlt, h (by omega) hlt]

/-! ### What an accepted codec command writes -/

theorem packLengthFits_eq (s : State) :
    packLengthFits s = !exceeds s.codec.cbLen.toNat s.params.cbMax := by
  rw [packLengthFits, exceeds_eq_not_fits, Bool.not_not]

theorem unpackLengthFits_iff (s : State) :
    unpackLengthFits s = true ↔ s.codec.cwBits % 8 = 0 ∧ exceeds (s.codec.cwBits / 8) s.params.cbMax = false := by
  rw [unpackLengthFits, exceeds_eq_not_fits, Bool.and_eq_true, beq_iff_eq, Bool.not_eq_false']

/-- The state an accepted `PACK` leaves (R112). -/
def packed (s : State) : State := accept { s with codec := packCodec s }

/-- The state an accepted `UNPACK` leaves (R115). -/
def unpacked (s : State) : State := accept { s with codec := unpackCodec s }

theorem exec_pack_of_fits {s : State} (h : packLengthFits s = true) :
    exec .pack s = .next (packed s) :=
  if_pos h

theorem exec_pack_of_not_fits {s : State} (h : packLengthFits s = false) :
    exec .pack s = .next (reject .badLength s) :=
  if_neg (ne_true_of_eq_false h)

theorem exec_unpack_of_fits {s : State} (h : unpackLengthFits s = true) :
    exec .unpack s = .next (unpacked s) :=
  if_pos h

theorem exec_unpack_of_not_fits {s : State} (h : unpackLengthFits s = false) :
    exec .unpack s = .next (reject .badLength s) :=
  if_neg (ne_true_of_eq_false h)

/-- After writes from index 0 on, an element is the one written or the old one. -/
theorem getD_lookup_storeSeq_zero {α : Type} {m : Memory α} (h : m.wf) (vs : List α) (k : Nat) (d : α) :
    ((m.storeSeq 0 vs).lookup k).getD d = vs.getD k ((m.lookup k).getD d) := by
  rw [lookup_storeSeq m 0 k vs h, List.getD_eq_getElem?_getD]
  by_cases hk : k < vs.length <;> simp [hk]

theorem readBytes_getD (s : State) (space : ByteSpace) (n k : Nat) :
    (readBytes s space 0 n).getD k 0 = if k < n then readByte s space k else 0 := by
  by_cases hk : k < n <;> simp [readBytes, hk]

theorem readCws_getD {s : State} {n k : Nat} (h : k < n) : (readCws s 0 n).getD k 0 = readCw s k := by
  simp [readCws, h]

theorem getD_of_lt_length {α : Type} {xs : List α} {k : Nat} (h : k < xs.length) (d d' : α) :
    xs.getD k d = xs.getD k d' := by
  rw [List.getD_eq_getElem _ _ h, List.getD_eq_getElem _ _ h]

/-- R112: `CW` after an accepted `PACK`. -/
theorem readCw_packed {s : State} (h : s.codec.cw.wf) (m : Nat) :
    readCw (packed s) m = (lepack (codecBytesOperand s)).getD m (readCw s m) :=
  getD_lookup_storeSeq_zero h _ _ _

theorem length_codecBytesOperand (s : State) : (codecBytesOperand s).length = s.codec.cbLen.toNat :=
  length_readBytes _ _ _ _

theorem length_lepack_codecBytesOperand (s : State) :
    (lepack (codecBytesOperand s)).length = divUp s.codec.cbLen.toNat 4 := by
  rw [length_lepack, length_codecBytesOperand]

/-- R115: `CB` after an accepted `UNPACK`. -/
theorem readByte_unpacked {s : State} (h : s.codec.cb.wf) (k : Nat) :
    readByte (unpacked s) .cb k =
      (leunpack (codecWordsOperand s) s.codec.cwBits).getD k (readByte s .cb k) :=
  getD_lookup_storeSeq_zero h _ _ _

/-- R115: the bytes of the words `UNPACK` reads. -/
theorem leByte_codecWordsOperand {s : State} {k : Nat} (h : k < s.codec.cwBits / 8) :
    leByte (codecWordsOperand s) k = (readCw s (k / 4)).extractLsb' (8 * (k % 4)) 8 := by
  rw [leByte, codecWordsOperand, readCws_getD ((lt_divUp_iff (by omega)).mpr (by omega))]

/-- Settles O24: `CW` holds the packed bytes of `CB` below `ceil(CB_LEN/4)`, and its old words from there on. -/
theorem packPacksLittleEndian : Obligations.PackPacksLittleEndian := by
  refine ⟨decode_encode .pack, fun s => ⟨fun hlong => ?_, fun hfit hwf => ?_⟩⟩
  · exact exec_pack_of_not_fits (by rw [packLengthFits_eq, hlong]; rfl)
  · have hpacked := readCw_packed hwf
    have hlen := length_lepack_codecBytesOperand s
    refine ⟨_, exec_pack_of_fits (by rw [packLengthFits_eq, hfit]; rfl), rfl, fun m q hm hq => ?_, fun m hm => ?_⟩
    · rw [hpacked, getD_of_lt_length (hlen ▸ hm) _ 0, ← leByte_of_word _ m hq, leByte_lepack]
      exact readBytes_getD s .cb _ _
    · rw [hpacked, List.getD_eq_default _ _ (hlen ▸ hm)]

/-- Settles O25: `CB` holds the bytes of the words of `CW` below `CW_BITS/8`, and its old bytes from there on. -/
theorem unpackUnpacksLittleEndian : Obligations.UnpackUnpacksLittleEndian := by
  refine ⟨decode_encode .unpack, fun s => ⟨fun hbits => ?_, fun hlong => ?_, fun hbits hfit hmax hwf => ?_⟩⟩
  · exact exec_unpack_of_not_fits (Bool.eq_false_iff.mpr fun h => hbits ((unpackLengthFits_iff s).mp h).1)
  · refine exec_unpack_of_not_fits (Bool.eq_false_iff.mpr fun h => ?_)
    exact Bool.false_ne_true (((unpackLengthFits_iff s).mp h).2.symm.trans hlong)
  · have hunpacked := readByte_unpacked hwf
    have hlen := length_leunpack (codecWordsOperand s) s.codec.cwBits
    refine ⟨_, exec_unpack_of_fits ((unpackLengthFits_iff s).mpr ⟨hbits, hfit⟩), rfl, ?_, fun k hk => ?_, fun k hk => ?_⟩
    · exact (BitVec.toNat_ofNat _ _).trans (Nat.mod_eq_of_lt (by omega))
    · rw [hunpacked, getD_of_lt_length (hlen ▸ hk) _ 0, leunpack_getD_leByte, if_pos hk, leByte_codecWordsOperand hk]
    · rw [hunpacked, List.getD_eq_default _ _ (hlen ▸ hk)]

/-! ### `PACK` followed by `UNPACK` -/

theorem runCommands_cons {i : Instr} {s t : State} (h : exec i s = .next t) (is : List Instr) :
    runCommands (i :: is) s = runCommands is t := by
  rw [runCommands, h]

theorem divUp_bits_eq_divUp_bytes (n : Nat) : divUp (8 * n) 32 = divUp n 4 := by
  rw [divUp, divUp]
  omega

/-- R78: after `PACK` the operand of `UNPACK` is exactly what was packed. -/
theorem codecWordsOperand_packed {s : State} (h : s.codec.cw.wf) :
    codecWordsOperand (packed s) = lepack (codecBytesOperand s) := by
  have hoperand : codecWordsOperand (packed s) = readCws (packed s) 0 (divUp s.codec.cbLen.toNat 4) :=
    congrArg (readCws _ 0) (divUp_bits_eq_divUp_bytes _)
  have hlen := length_lepack_codecBytesOperand s
  rw [hoperand]
  refine list_ext_getD 0 ((length_readCws _ _ _).trans hlen.symm) fun m hm => ?_
  rw [length_readCws] at hm
  rw [readCws_getD hm, readCw_packed h, getD_of_lt_length (hlen ▸ hm) _ 0]

/-- R116: the bytes `UNPACK` writes after `PACK` are the ones `PACK` read. -/
theorem leunpack_codecWordsOperand_packed {s : State} (h : s.codec.cw.wf) :
    leunpack (codecWordsOperand (packed s)) (8 * s.codec.cbLen.toNat) =
      codecBytesOperand s := by
  rw [codecWordsOperand_packed h, ← length_codecBytesOperand s]
  exact unpackOfPackIsIdentity _

/-- Writing back what a sequence of bytes holds changes no byte. -/
theorem readBytes_getD_readByte (s : State) (space : ByteSpace) (n k : Nat) :
    (readBytes s space 0 n).getD k (readByte s space k) = readByte s space k := by
  by_cases hk : k < n <;> simp [readBytes, hk]

/-- Settles O28: `UNPACK` finds its bit length within the capacity and writes back the bytes `PACK` read. -/
theorem packThenUnpackRestoresTheBytes : Obligations.PackThenUnpackRestoresTheBytes := by
  intro s hfit hcb hcw
  have hpack := exec_pack_of_fits (s := s) (by rw [packLengthFits_eq, hfit]; rfl)
  have hbytes : 8 * s.codec.cbLen.toNat / 8 = s.codec.cbLen.toNat := Nat.mul_div_cancel_left _ (by omega)
  have hunpack := exec_unpack_of_fits (s := packed s)
    ((unpackLengthFits_iff _).mpr ⟨Nat.mul_mod_right _ _, (congrArg (exceeds · s.params.cbMax) hbytes).trans hfit⟩)
  refine ⟨_, (runCommands_cons hpack _).trans (runCommands_cons hunpack _), rfl, ?_, fun a => ?_⟩
  · change BitVec.ofNat 32 (8 * s.codec.cbLen.toNat / 8) = s.codec.cbLen
    rw [hbytes, BitVec.ofNat_toNat, BitVec.setWidth_eq]
  · calc readByte (unpacked (packed s)) .cb a
      _ = (leunpack (codecWordsOperand (packed s)) (8 * s.codec.cbLen.toNat)).getD a (readByte s .cb a) :=
          readByte_unpacked (s := packed s) hcb a
      _ = (codecBytesOperand s).getD a (readByte s .cb a) := by rw [leunpack_codecWordsOperand_packed hcw]
      _ = readByte s .cb a := readBytes_getD_readByte s .cb _ a

/-! ### Codec and engine stay apart -/

/-- A codec command is accepted and writes the codec, or is rejected. -/
theorem exec_codec_cases {i : Instr} {s t : State} (hi : i = .pack ∨ i = .unpack) (he : exec i s = .next t) :
    (∃ c, t = accept { s with codec := c }) ∨ t = reject .badLength s := by
  rcases hi with rfl | rfl
  · rcases execPack_cases he with ⟨_, ht⟩ | ⟨_, ht⟩
    · exact .inl ⟨_, ht⟩
    · exact .inr ht
  · rcases execUnpack_cases he with ⟨_, ht⟩ | ⟨_, ht⟩
    · exact .inl ⟨_, ht⟩
    · exact .inr ht

/-- A rejection sets the bit `ERR` alone (R222, R26). -/
theorem reject_irqStatus_getLsbD (code : ErrCode) (s : State) {k : Nat} (hk : k < 2) :
    (reject code s).ctrl.irqStatus.getLsbD k = s.ctrl.irqStatus.getLsbD k := by
  have herr : irqErr.getLsbD k = false := by interval_cases k <;> rfl
  rw [reject_ctrl, BitVec.getLsbD_or, herr, Bool.or_false]

/-- R117: a codec command does the same whatever the engine and the inputs hold. -/
theorem exec_codec_withEngine {i : Instr} {s t : State} (hi : i = .pack ∨ i = .unpack) (he : exec i s = .next t)
    (e : Engine) (inp : Inputs) :
    exec i { s with engine := e, inputs := inp } = .next { t with engine := e, inputs := inp } := by
  rcases hi with rfl | rfl
  · rcases execPack_cases he with ⟨hfit, rfl⟩ | ⟨hfit, rfl⟩
    · exact exec_pack_of_fits hfit
    · exact exec_pack_of_not_fits hfit
  · rcases execUnpack_cases he with ⟨hfit, rfl⟩ | ⟨hfit, rfl⟩
    · exact exec_unpack_of_fits hfit
    · exact exec_unpack_of_not_fits hfit

theorem chunkCompletion_withCodec (s : State) (c : Codec) :
    chunkCompletion { s with codec := c } = { chunkCompletion s with codec := c } := by
  unfold chunkCompletion
  split <;> rfl

/-- R117: a chunk does the same whatever the codec holds. -/
theorem chunk_withCodec (s : State) (c : Codec) : chunk { s with codec := c } = { chunk s with codec := c } := by
  have hprogress : chunkProgress { s with codec := c } = { chunkProgress s with codec := c } := rfl
  rw [chunk, chunk, hprogress]
  split
  · rfl
  · exact chunkCompletion_withCodec _ c

/-- R117: an engine command does the same whatever the codec holds; its checks read the engine and the inputs. -/
theorem exec_engine_withCodec {i : Instr} {s t : State} (hpack : i ≠ .pack) (hunpack : i ≠ .unpack)
    (he : exec i s = .next t) (c : Codec) : exec i { s with codec := c } = .next { t with codec := c } := by
  cases i with
  | init =>
    rcases execInit_cases he with ⟨hrun, rfl⟩ | ⟨hrun, hpar, rfl⟩ | ⟨hrun, hpar, hlen, rfl⟩ | ⟨hrun, hpar, hlen, rfl⟩
    · exact if_pos hrun
    · exact (if_neg hrun).trans (if_pos hpar)
    · exact (if_neg hrun).trans ((if_neg (ne_true_of_eq_false hpar)).trans (if_pos (congrArg (!·) hlen)))
    · exact (if_neg hrun).trans ((if_neg (ne_true_of_eq_false hpar)).trans
        (if_neg (ne_true_of_eq_false (congrArg (!·) hlen))))
  | start =>
    rcases execStart_cases he with ⟨hidle, rfl⟩ | ⟨hidle, rfl⟩
    · exact if_pos hidle
    · exact if_neg hidle
  | step =>
    rcases execStep_cases he with ⟨hrun, rfl⟩ | ⟨hrun, rfl⟩
    · refine (if_pos hrun).trans ?_
      rw [chunk_withCodec]
      rfl
    · exact if_neg hrun
  | abort =>
    rcases execAbort_cases he with ⟨hrun, rfl⟩ | ⟨hrun, rfl⟩
    · exact if_pos hrun
    · exact if_neg hrun
  | pack => exact absurd rfl hpack
  | unpack => exact absurd rfl hunpack

/-- R117: an engine command leaves the codec, as it does the same with the codec set to what it already is. -/
theorem exec_engine_codec {i : Instr} {s t : State} (hpack : i ≠ .pack) (hunpack : i ≠ .unpack)
    (he : exec i s = .next t) : t.codec = s.codec := by
  have hsame : exec i s = .next { t with codec := s.codec } := exec_engine_withCodec hpack hunpack he s.codec
  have ht : t = { t with codec := s.codec } := Host.Outcome.next.inj (he.symm.trans hsame)
  rw [ht]

/-- Settles O29: codec commands write the codec or are rejected, engine commands and the chunk leave it, and neither
reads what the other holds. -/
theorem codecAndEngineDoNotInteract : Obligations.CodecAndEngineDoNotInteract := by
  refine ⟨fun i s hi => ?_, fun i s hpack hunpack => ?_, fun s c => ⟨(chunk_frame s).codec, chunk_withCodec s c⟩⟩
  · obtain ⟨t, he⟩ := exec_answers i s
    refine ⟨t, he, ?_⟩
    have hindep := exec_codec_withEngine hi he
    rcases exec_codec_cases hi he with ⟨c, rfl⟩ | rfl
    · exact ⟨rfl, rfl, rfl, rfl, rfl, rfl, hindep⟩
    · exact ⟨rfl, rfl, rfl, rfl, reject_irqStatus_getLsbD _ s (by omega), reject_irqStatus_getLsbD _ s (by omega), hindep⟩
  · obtain ⟨t, he⟩ := exec_answers i s
    exact ⟨t, he, exec_engine_codec hpack hunpack he, exec_engine_withCodec hpack hunpack he⟩

end Sys2Proof.Machine

/-! The bytes of the hash's words, most significant first: the packers against each other, where a character lands, and
the hex characters (41_hash_packing_hmac.md R130 to R133). -/

namespace Sys2Proof.Machine

open Sys2Proof

/-! ### The bytes of a word sequence, most significant first -/

/-- Byte `k` of a word sequence, most significant byte of each word first (R130); 0 beyond its words. -/
def beByte (w : List Word) (k : Nat) : Byte := (w.getD (k / 4) 0).extractLsb' (24 - 8 * (k % 4)) 8

/-- Reading from the other end of each word. -/
theorem beByte_eq_leByte (w : List Word) (k : Nat) : beByte w k = leByte w (4 * (k / 4) + (3 - k % 4)) := by
  rw [leByte_of_word w _ (by omega), beByte, show 24 - 8 * (k % 4) = 8 * (3 - k % 4) by omega]

theorem leByte_eq_beByte (w : List Word) (k : Nat) : leByte w k = beByte w (4 * (k / 4) + (3 - k % 4)) := by
  rw [beByte_eq_leByte]
  congr 1
  omega

theorem beByte_of_beyond {w : List Word} {k : Nat} (h : 4 * w.length ≤ k) : beByte w k = 0 := by
  rw [beByte_eq_leByte, leByte_of_beyond (by omega)]

/-- Words are their bytes. -/
theorem words_ext_beByte {w w' : List Word} (hlen : w.length = w'.length)
    (h : ∀ k < 4 * w.length, beByte w k = beByte w' k) : w = w' := by
  refine (words_eq_iff_leByte hlen).mpr fun k hk => ?_
  rw [leByte_eq_beByte, leByte_eq_beByte]
  exact h _ (by omega)

@[simp] theorem length_wordBytes (x : Word) : (wordBytes x).length = 4 := rfl

@[simp] theorem length_flatMap_wordBytes (w : List Word) : (w.flatMap wordBytes).length = 4 * w.length := by
  simp [List.length_flatMap, Nat.mul_comm]

/-- R130: `bpack` keeps every character and pads with 0. -/
theorem beByte_bpack8 (s : List Byte) (k : Nat) : beByte (bpack8 s) k = s.getD k 0 := by
  by_cases hk : k / 4 < divUp s.length 4
  · rw [beByte, show 24 - 8 * (k % 4) = 8 * (3 - k % 4) by omega, bpack8_byte s _ _ hk (by omega)]
    congr 1
    omega
  · have hb := (divUp_le_iff (by omega)).mp (Nat.le_of_not_lt hk)
    rw [beByte_of_beyond (by rw [length_bpack8_words]; omega), List.getD_eq_default _ _ (by omega)]

/-- Element `r` of part `q`, where every part has `n` elements. -/
theorem getElem?_flatMap_of_length {α β : Type} {f : α → List β} {n : Nat} (hf : ∀ a, (f a).length = n)
    (l : List α) (q : Nat) {r : Nat} (hr : r < n) : (l.flatMap f)[n * q + r]? = l[q]?.bind fun a => (f a)[r]? := by
  induction l generalizing q with
  | nil => simp
  | cons a l ih =>
    rw [List.flatMap_cons]
    cases q with
    | zero => rw [List.getElem?_append_left (by rw [hf]; omega)]; simp
    | succ q =>
      rw [List.getElem?_append_right (by rw [hf, Nat.mul_succ]; omega), hf,
        show n * (q + 1) + r - n = n * q + r by rw [Nat.mul_succ]; omega, ih, List.getElem?_cons_succ]

theorem beByte_eq_getD (w : List Word) (k : Nat) : beByte w k = (w.flatMap wordBytes).getD k 0 := by
  have hr : k % 4 < 4 := Nat.mod_lt _ (by omega)
  rw [beByte, List.getD_eq_getElem?_getD, List.getD_eq_getElem?_getD]
  conv_rhs => rw [← Nat.div_add_mod k 4, getElem?_flatMap_of_length length_wordBytes _ _ hr]
  cases w[k / 4]? with
  | none => exact BitVec.extractLsb'_zero
  | some x =>
    generalize k % 4 = r at hr
    interval_cases r <;> rfl

/-- Packing puts a word's bytes back where they were. -/
@[simp] theorem bpack8_flatMap_wordBytes (w : List Word) : bpack8 (w.flatMap wordBytes) = w := by
  have hlen : (bpack8 (w.flatMap wordBytes)).length = w.length := by
    rw [length_bpack8_words, length_flatMap_wordBytes, divUp]
    omega
  exact words_ext_beByte hlen fun k _ => by rw [beByte_bpack8, beByte_eq_getD]

/-- A number of bytes that is a multiple of four is a sequence of words. -/
theorem flatMap_wordBytes_bpack8 {a : List Byte} (ha : a.length % 4 = 0) : (bpack8 a).flatMap wordBytes = a := by
  have hlen : ((bpack8 a).flatMap wordBytes).length = a.length := by
    rw [length_flatMap_wordBytes, length_bpack8_words, divUp]
    omega
  exact list_ext_getD 0 hlen fun k _ => by rw [← beByte_eq_getD, beByte_bpack8]

/-- R131: packing splits behind whole words. -/
theorem bpack8_words_append (w : List Word) (b : List Byte) :
    bpack8 (w.flatMap wordBytes ++ b) = w ++ bpack8 b := by
  have hlen : (bpack8 (w.flatMap wordBytes ++ b)).length = (w ++ bpack8 b).length := by
    simp only [length_bpack8_words, List.length_append, length_flatMap_wordBytes, divUp]
    omega
  refine words_ext_beByte hlen fun k _ => ?_
  rw [beByte_bpack8, beByte_eq_getD, List.flatMap_append]
  rcases Nat.lt_or_ge k (w.flatMap wordBytes).length with hk | hk
  · rw [List.getD_append _ _ _ _ hk, List.getD_append _ _ _ _ hk]
  · rw [List.getD_append_right _ _ _ _ hk, List.getD_append_right _ _ _ _ hk, ← beByte_eq_getD, beByte_bpack8]

theorem bpack8_append {a : List Byte} (ha : a.length % 4 = 0) (b : List Byte) :
    bpack8 (a ++ b) = bpack8 a ++ bpack8 b := by
  rw [← bpack8_words_append, flatMap_wordBytes_bpack8 ha]

/-- Settles O30: byte `q` of a word from the low end is character `q` or `3 - q` of its four. -/
theorem packersAreByteReversals : Obligations.PackersAreByteReversals := by
  refine ⟨fun b => ⟨by rw [length_bpack8_words, length_lepack], fun m q hm hq => ?_⟩,
    fun a b ha => bpack8_append ha b⟩
  rw [length_lepack] at hm
  rw [bpack8_byte b m q hm hq, lepack_byte b m (3 - q) hm (by omega)]

/-- R130 at 16 bits per character, counted from the low end of the word. -/
theorem bpack16_half {s : List (BitVec 16)} {m q : Nat} (hm : m < divUp (s.length * 16) 32) (hq : q < 2) :
    ((bpack16 s).getD m 0).extractLsb' (16 * q) 16 = s.getD (2 * m + (1 - q)) 0 := by
  rw [List.getD_eq_getElem _ _ (by rwa [length_bpack16])]
  simp only [bpack16, List.getElem_map, List.getElem_range]
  rw [half_append2 _ _ _ hq]
  interval_cases q <;> rfl

/-- Settles O31: character by character at each width. -/
theorem bigEndianPackerLayout : Obligations.BigEndianPackerLayout := by
  refine ⟨fun s => ⟨length_bpack8 s, fun k _ => beByte_bpack8 s k⟩, fun s => ⟨length_bpack16 s, fun k hk => ?_⟩⟩
  rw [length_bpack16] at hk
  rw [show 16 - 16 * (k % 2) = 16 * (1 - k % 2) by omega, bpack16_half (by omega) (by omega)]
  congr 1
  omega

/-! ### Hex characters -/

theorem getElem?_wordHex (w : Word) {r : Nat} (hr : r < 8) :
    (wordHex w)[r]? = some (hexDigit (w.extractLsb' (28 - 4 * r) 4)) := by
  simp [wordHex, hr]

/-- Settles O32: character `8q + r` is character `r` of word `q`. -/
theorem hexFormatterDigits : Obligations.HexFormatterDigits := by
  refine fun w => ⟨length_bhex w, fun q r hq hr => ?_⟩
  rw [bhex, getElem?_flatMap_of_length length_wordHex _ _ hr, List.getElem?_eq_getElem hq, Option.bind_some,
    getElem?_wordHex _ hr, List.getD_eq_getElem _ _ hq]
  rfl

theorem nibble_of_byte (w : Word) (a : Nat) {b : Nat} (hb : b + 4 ≤ 8) :
    (w.extractLsb' a 8).extractLsb' b 4 = w.extractLsb' (a + b) 4 := by
  ext i hi
  simp only [BitVec.getElem_extractLsb', BitVec.getLsbD_extractLsb', decide_eq_true (show b + i < 8 by omega),
    Bool.true_and, Nat.add_assoc]

/-- R133: a word's hex characters are those of its bytes. -/
theorem wordHex_eq_bytesHex (w : Word) : wordHex w = bytesHex (wordBytes w) := by
  simp only [bytesHex, wordBytes, List.flatMap_cons, List.flatMap_nil, nibble_of_byte w _ (show 4 + 4 ≤ 8 by omega),
    nibble_of_byte w _ (show 0 + 4 ≤ 8 by omega)]
  rfl

theorem bhex_eq_bytesHex (w : List Word) : bhex w = bytesHex (w.flatMap wordBytes) := by
  rw [bhex, bytesHex, List.flatMap_assoc]
  exact congrArg (w.flatMap ·) (funext wordHex_eq_bytesHex)

theorem take_bytesHex (b : List Byte) (m : Nat) : (bytesHex b).take (2 * m) = bytesHex (b.take m) := by
  induction b generalizing m with
  | nil => simp [bytesHex]
  | cons x b ih =>
    cases m with
    | zero => rfl
    | succ m => exact congrArg ([hexDigit (x.extractLsb' 4 4), hexDigit (x.extractLsb' 0 4)] ++ ·) (ih m)

/-- Settles O33: the hex of a word sequence is the hex of its bytes, two characters a byte. -/
theorem truncatedHexIsTruncatedBytes : Obligations.TruncatedHexIsTruncatedBytes := fun d m _ =>
  ⟨length_bhex d.words, by rw [bhex_eq_bytesHex, take_bytesHex]; rfl⟩

end Sys2Proof.Machine

/-! The block index under its two masks, and how far they give the same key (41_hash_packing_hmac.md R134, R135). -/

namespace Sys2Proof.Machine

open Sys2Proof

theorem bpack8_wordBytes (x : Word) : bpack8 (wordBytes x) = [x] := by
  rw [← bpack8_flatMap_wordBytes [x], List.flatMap_singleton]

theorem wordBytes_injective : Function.Injective wordBytes := fun x y h => by
  have hpacked := congrArg bpack8 h
  rw [bpack8_wordBytes, bpack8_wordBytes] at hpacked
  exact List.singleton_inj.mp hpacked

/-- R134: the bytes of the index, each under the mask. -/
theorem idx4_eq_map (mask : IdxMask) (i : Word) : idx4 mask i = (wordBytes i).map (· &&& mask.byte) := by
  rw [idx4, BitVec.setWidth_ushiftRight_eq_extractLsb, BitVec.setWidth_ushiftRight_eq_extractLsb,
    BitVec.setWidth_ushiftRight_eq_extractLsb, BitVec.setWidth_eq_extractLsb' (by omega)]
  rfl

theorem idx4_full (i : Word) : idx4 .full i = wordBytes i := by
  rw [idx4_eq_map, IdxMask.byte, show (0xFF : Byte) = BitVec.allOnes 8 from rfl]
  simp only [BitVec.and_allOnes, List.map_id']

/-- R134 under the narrow mask: masking the bytes is masking the word. -/
theorem idx4_nibble (i : Word) : idx4 .nibble i = wordBytes (i &&& 0x0F0F0F0F) := by
  simp only [idx4_eq_map, wordBytes, BitVec.extractLsb'_and]
  rfl

/-- Masking leaves a word as it is when none of its bits is outside the mask. -/
theorem eq_and_iff_and_not_eq_zero {w : Nat} (x m : BitVec w) : x = x &&& m ↔ x &&& ~~~m = 0#w := by
  rw [BitVec.eq_of_getLsbD_eq_iff, BitVec.eq_of_getLsbD_eq_iff]
  refine forall₂_congr fun k hk => ?_
  simp only [BitVec.getLsbD_and, BitVec.getLsbD_not, hk, decide_true, BitVec.getLsbD_zero]
  cases x.getLsbD k <;> simp

/-- R135: the indices on which the masks agree. -/
theorem idx4_full_eq_nibble_iff (i : Word) : idx4 .full i = idx4 .nibble i ↔ i &&& 0xF0F0F0F0 = 0 := by
  rw [idx4_full, idx4_nibble, wordBytes_injective.eq_iff, eq_and_iff_and_not_eq_zero]
  rfl

/-- Settles O34: under `0xFF` the index is the bytes of `i`, under `0x0F` those of `i and 0x0F0F0F0F`. -/
theorem blockIndexUnderBothMasks : Obligations.BlockIndexUnderBothMasks := by
  refine ⟨fun i => ⟨idx4_full i, idx4_eq_map .nibble i⟩, idx4_full_eq_nibble_iff, fun i j h => ?_, by decide⟩
  rw [idx4_full, idx4_full] at h
  exact wordBytes_injective h

/-! ### What the mask reaches of the key -/

/-- R139: the mask enters a block through its index alone. -/
theorem uRef_congr_mask {mask mask' : IdxMask} {i : Word} (h : idx4 mask i = idx4 mask' i) (e : Engine) (j : Nat) :
    uRef mask e i j = uRef mask' e i j := by
  induction j with
  | zero => rw [uRef, uRef, firstU, firstU, firstMessageBytes, firstMessageBytes, h]
  | succ j ih => rw [uRef, uRef, ih]

theorem tRef_congr_mask {mask mask' : IdxMask} {i : Word} (h : idx4 mask i = idx4 mask' i) (e : Engine) (j : Nat) :
    tRef mask e i j = tRef mask' e i j := by
  induction j with
  | zero => rfl
  | succ j ih => rw [tRef, tRef, ih, uRef_congr_mask h]

/-- R135: an index of one hex digit has no bit outside the narrow mask. -/
theorem idx4_full_eq_nibble_of_le {i : Nat} (hi : i ≤ 15) :
    idx4 .full (BitVec.ofNat 32 i) = idx4 .nibble (BitVec.ofNat 32 i) := by
  have hmasked : ∀ i ≤ 15, BitVec.ofNat 32 i &&& 0xF0F0F0F0 = 0 := by decide
  exact (idx4_full_eq_nibble_iff _).mpr (hmasked i hi)

theorem blocksHex_full_eq_nibble (e : Engine) {n : Nat} (hn : n ≤ 15) :
    blocksHex .full e n = blocksHex .nibble e n := by
  refine List.flatMap_congr fun k hk => ?_
  have hindex : k + 1 ≤ 15 := (List.mem_range.mp hk).trans_le hn
  rw [tRef_congr_mask (idx4_full_eq_nibble_of_le hindex)]

/-- Settles O57: 600 characters are 15 blocks, whose indices do not exceed 15. -/
theorem keysUnderBothMasksAgreeUpToBlock15 : Obligations.KeysUnderBothMasksAgreeUpToBlock15 := by
  refine fun e n => ⟨blocksHex_full_eq_nibble e, ?_⟩
  rcases Nat.lt_or_ge 15 n with hn | hn
  · have hprefix (mask : IdxMask) : (blocksHex mask e n).take 600 = blocksHex mask e 15 := by
      simpa using take_blocksHex mask e hn (k := 0) (by omega)
    rw [hprefix, hprefix, blocksHex_full_eq_nibble e le_rfl]
  · rw [blocksHex_full_eq_nibble e hn]

end Sys2Proof.Machine

/-! The calls of `HASH` meet its preconditions, and the PRF is HMAC-SHA1 on bytes (41_hash_packing_hmac.md R136 to R140;
42_engine_construct.md R162 to R164). -/

namespace Sys2Proof.Machine

open Sys2Proof

/-! ### Packed messages and the hash port -/

/-- A bit of a word is a bit of one of its bytes. -/
theorem getLsbD_eq_byte (x : Word) (j : Nat) : x.getLsbD j = (x.extractLsb' (8 * (j / 8)) 8).getLsbD (j % 8) := by
  rw [BitVec.getLsbD_extractLsb', decide_eq_true (Nat.mod_lt _ (by omega)), Bool.true_and, Nat.div_add_mod]

theorem lowBitsZero_of_bits {x : Word} {k : Nat} (h : ∀ j < 32 - k, x.getLsbD j = false) :
    lowBitsZero x k = true := by
  rw [lowBitsZero, beq_iff_eq]
  refine BitVec.eq_of_getLsbD_eq fun i hi => ?_
  refine Eq.trans ?_ BitVec.getLsbD_zero.symm
  rw [BitVec.getLsbD_shiftLeft]
  rcases Nat.lt_or_ge i k with hk | hk
  · rw [decide_eq_true hk, Bool.not_true, Bool.and_false, Bool.false_and]
  · rw [h (i - k) (by omega), Bool.and_false]

/-- R137 (b) of a packed message: the last word has no bit behind the last character. -/
theorem lowBitsZero_bpack8 (s : List Byte) (h : 8 * s.length % 32 ≠ 0) :
    lowBitsZero ((bpack8 s).getD (8 * s.length / 32) 0) (8 * s.length % 32) = true := by
  refine lowBitsZero_of_bits fun j hj => ?_
  have hword : 8 * s.length / 32 < divUp s.length 4 := (lt_divUp_iff (by omega)).mpr (by omega)
  rw [getLsbD_eq_byte, bpack8_byte s _ _ hword (by omega), List.getD_eq_default _ _ (by omega)]
  exact BitVec.getLsbD_zero

/-- A packed message meets R137. -/
theorem hashPre_bpack8 (s : List Byte) : hashPre (bpack8 s) (8 * s.length) = true := by
  have hlast : 8 * s.length % 32 = 0 ∨
      lowBitsZero ((bpack8 s).getD (8 * s.length / 32) 0) (8 * s.length % 32) = true :=
    or_iff_not_imp_left.mpr (lowBitsZero_bpack8 s)
  simp only [hashPre, Bool.and_eq_true, Bool.or_eq_true, beq_iff_eq]
  exact ⟨⟨by rw [length_bpack8, Nat.mul_comm], hlast⟩, by omega⟩

/-- So does one behind whole words, which is a packed message itself. -/
theorem hashPre_words_append (w : List Word) (x : List Byte) :
    hashPre (w ++ bpack8 x) (32 * w.length + 8 * x.length) = true := by
  have h := hashPre_bpack8 (w.flatMap wordBytes ++ x)
  rwa [bpack8_words_append, List.length_append, length_flatMap_wordBytes, Nat.mul_add, ← Nat.mul_assoc] at h

@[simp] theorem length_digestBytes (d : Digest) : (digestBytes d).length = 20 := rfl

@[simp] theorem bpack8_digestBytes (d : Digest) : bpack8 (digestBytes d) = d.words := bpack8_flatMap_wordBytes d.words

theorem hashPre_pad_message (pad : Vector Word 16) (x : List Byte) :
    hashPre (pad.toList ++ bpack8 x) (512 + 8 * x.length) = true := by
  simpa using hashPre_words_append pad.toList x

theorem hashPre_pad_digest (pad : Vector Word 16) (d : Digest) :
    hashPre (pad.toList ++ d.words) (512 + 160) = true := by
  simpa using hashPre_pad_message pad (digestBytes d)

theorem hashPort_bpack8 (s : List Byte) : hashPort (bpack8 s) (8 * s.length) = sha1 (bpack8 s) (8 * s.length) :=
  hashPort_of_pre (hashPre_bpack8 s)

/-! ### The definitions that call the hash port -/

theorem keyWords_eq_sha1 (pw : List Byte) : keyWords pw =
    if 16 < (bpack8 pw).length then (sha1 (bpack8 pw) (8 * pw.length)).words else bpack8 pw := by
  rw [keyWords, hashPort_bpack8]

/-- R138 on a packed message. -/
theorem hmac_eq_sha1 (ipad opad : Vector Word 16) (x : List Byte) : hmac ipad opad (bpack8 x) (8 * x.length) =
    sha1 (opad.toList ++ (sha1 (ipad.toList ++ bpack8 x) (512 + 8 * x.length)).words) (512 + 160) := by
  rw [hmac, hashPort_of_pre (hashPre_pad_message ipad x), hashPort_of_pre (hashPre_pad_digest opad _)]

/-- R138 on a digest. -/
theorem hmac_digest_eq_sha1 (ipad opad : Vector Word 16) (d : Digest) : hmac ipad opad d.words 160 =
    sha1 (opad.toList ++ (sha1 (ipad.toList ++ d.words) (512 + 160)).words) (512 + 160) := by
  simpa using hmac_eq_sha1 ipad opad (digestBytes d)

/-- R139, first form. -/
theorem firstU_eq_sha1 (mask : IdxMask) (e : Engine) (i : Word) : firstU mask e i =
    sha1 (e.opad.toList ++
      (sha1 (e.ipad.toList ++ bpack8 (e.saltL ++ idx4 mask i)) (512 + 8 * (e.saltL.length + 4))).words)
      (512 + 160) := by
  have h := hmac_eq_sha1 e.ipad e.opad (e.saltL ++ idx4 mask i)
  rwa [List.length_append, length_idx4] at h

/-- Settles O35: every message of the engine is a packed one, a digest included. -/
theorem hashCallsMeetThePreconditions : Obligations.HashCallsMeetThePreconditions :=
  ⟨hashPre_bpack8, hashPre_pad_message, hashPre_pad_digest, keyWords_eq_sha1, hmac_eq_sha1, firstU_eq_sha1,
    fun e u => hmac_digest_eq_sha1 e.ipad e.opad u⟩

/-! ### HMAC on bytes -/

/-- The bytes of the HMAC key before they are padded with 0 (R140, 93 G2). -/
def shortKeyBytes (pw : List Byte) : List Byte := if 64 < pw.length then hashBytes pw else pw

theorem hmacKeyBytes_eq (pw : List Byte) :
    hmacKeyBytes pw = shortKeyBytes pw ++ List.replicate (64 - (shortKeyBytes pw).length) 0 := rfl

theorem length_shortKeyBytes_le (pw : List Byte) : (shortKeyBytes pw).length ≤ 64 := by
  unfold shortKeyBytes
  split
  · exact (length_digestBytes _).trans_le (by omega)
  · omega

@[simp] theorem length_hmacKeyBytes (pw : List Byte) : (hmacKeyBytes pw).length = 64 := by
  have := length_shortKeyBytes_le pw
  rw [hmacKeyBytes_eq, List.length_append, List.length_replicate]
  omega

theorem getD_hmacKeyBytes (pw : List Byte) (k : Nat) : (hmacKeyBytes pw).getD k 0 = (shortKeyBytes pw).getD k 0 := by
  rw [hmacKeyBytes_eq]
  rcases Nat.lt_or_ge k (shortKeyBytes pw).length with hk | hk
  · rw [List.getD_append _ _ _ _ hk]
  · rw [List.getD_append_right _ _ _ _ hk, List.getD_eq_getElem?_getD, List.getElem?_getD_replicate_default_eq,
      List.getD_eq_default _ _ hk]

/-- R163: key shortening on words is that on bytes; 16 words hold 64 bytes. -/
theorem keyWords_eq_bpack8 (pw : List Byte) : keyWords pw = bpack8 (shortKeyBytes pw) := by
  have hwords : 16 < (bpack8 pw).length ↔ 64 < pw.length := by
    rw [length_bpack8_words, lt_divUp_iff (by omega)]
  rw [keyWords_eq_sha1, if_congr hwords rfl rfl, shortKeyBytes, apply_ite bpack8, hashBytes, bpack8_digestBytes]

/-- A word of four equal bytes, as both pad words are (R164). -/
def repeatByte (p : Byte) : Word := p ++ p ++ p ++ p

theorem repeatByte_byte (p : Byte) {q : Nat} (hq : q < 4) : (repeatByte p).extractLsb' (8 * q) 8 = p := by
  rw [repeatByte, byte_append4 _ _ _ _ _ hq]
  simp only [ite_self]

theorem beByte_padWords (key : List Word) (p : Byte) {k : Nat} (hk : k < 64) :
    beByte (padWords key (repeatByte p)).toList k = beByte key k ^^^ p := by
  have hword : (padWords key (repeatByte p)).toList.getD (k / 4) 0 = key.getD (k / 4) 0 ^^^ repeatByte p := by
    rw [List.getD_eq_getElem _ _ (by rw [Vector.length_toList]; omega), Vector.getElem_toList]
    exact padWords_getElem _ _ _ (by omega)
  rw [beByte, beByte, hword, BitVec.extractLsb'_xor, show 24 - 8 * (k % 4) = 8 * (3 - k % 4) by omega,
    repeatByte_byte p (by omega)]

/-- R164 on bytes. -/
theorem padWords_eq_bpack8 (pw : List Byte) (p : Byte) :
    (padWords (keyWords pw) (repeatByte p)).toList = bpack8 ((hmacKeyBytes pw).map (· ^^^ p)) := by
  have hlen : (padWords (keyWords pw) (repeatByte p)).toList.length =
      (bpack8 ((hmacKeyBytes pw).map (· ^^^ p))).length := by
    rw [length_bpack8_words, List.length_map, length_hmacKeyBytes, Vector.length_toList]
    rfl
  refine words_ext_beByte hlen fun k hk => ?_
  rw [Vector.length_toList] at hk
  calc beByte (padWords (keyWords pw) (repeatByte p)).toList k
      = beByte (keyWords pw) k ^^^ p := beByte_padWords _ _ hk
    _ = (hmacKeyBytes pw).getD k 0 ^^^ p := by rw [keyWords_eq_bpack8, beByte_bpack8, getD_hmacKeyBytes]
    _ = ((hmacKeyBytes pw).map (· ^^^ p)).getD k 0 := by
      rw [List.getD_eq_getElem _ _ (by simpa using hk), List.getD_eq_getElem _ _ (by simpa using hk), List.getElem_map]
    _ = _ := (beByte_bpack8 _ k).symm

/-- Hashing a padded key and a message on bytes and on words. -/
theorem hashBytes_pad_append (pw : List Byte) (p : Byte) (x : List Byte) :
    hashBytes ((hmacKeyBytes pw).map (· ^^^ p) ++ x) =
      digestBytes (sha1 ((padWords (keyWords pw) (repeatByte p)).toList ++ bpack8 x)
        (512 + 8 * x.length)) := by
  rw [hashBytes, bpack8_append (by simp), ← padWords_eq_bpack8, List.length_append, List.length_map,
    length_hmacKeyBytes, Nat.mul_add]

/-- Settles O36: both hashes of the PRF are hashes on bytes behind the padded key. -/
theorem hmacIsRfc2104OnBytes : Obligations.HmacIsRfc2104OnBytes := by
  intro pw x
  have hinner : (0x36363636 : Word) = repeatByte 0x36 := rfl
  have houter : (0x5C5C5C5C : Word) = repeatByte 0x5C := rfl
  rw [hmac_eq_sha1, hmacBytes, hashBytes_pad_append, hashBytes_pad_append, bpack8_digestBytes, length_digestBytes,
    hinner, houter]

end Sys2Proof.Machine

/-! Engine construction: the outcomes of `INIT`, the key words at the 64-byte boundary, and what the construction depends
on (42_engine_construct.md R161 to R167). -/

namespace Sys2Proof.Machine

open Sys2Proof

/-! ### The outcomes of `INIT` -/

/-- A command with a rejection code is rejected with it, and has no other effect (R222). -/
theorem exec_of_rejected {i : Instr} {s : State} {code : ErrCode} (hcode : outcomeCode i s = code) (hne : code ≠ .ok) :
    exec i s = .next (reject code s) := by
  obtain ⟨t, he⟩ := exec_answers i s
  rcases exec_rejected_or_accepted he with ⟨_, rfl⟩ | ⟨hok, _⟩
  · rw [he, hcode]
  · exact absurd (hcode.symm.trans hok) hne

/-- The state an accepted `INIT` leaves (R161). -/
def initialized (s : State) : State := accept { s with engine := constructEngine s }

theorem exec_init_of_ok {s : State} (hok : outcomeCode .init s = .ok) : exec .init s = .next (initialized s) := by
  obtain ⟨t, he⟩ := exec_answers .init s
  have herr : t.ctrl.err = .ok := (exec_err he).trans hok
  rcases execInit_cases he with ⟨_, rfl⟩ | ⟨_, _, rfl⟩ | ⟨_, _, _, rfl⟩ | ⟨_, _, _, rfl⟩
  · exact nomatch herr
  · exact nomatch herr
  · exact nomatch herr
  · exact he

theorem initParamBad_iff (s : State) : initParamBad s = true ↔ s.inputs.iterCount = 0 ∨ s.inputs.dkLen = 0 := by
  rw [initParamBad, Bool.or_eq_true, beq_iff_eq, beq_iff_eq]

theorem not_initParamBad {s : State} (hiter : s.inputs.iterCount ≠ 0) (hdk : s.inputs.dkLen ≠ 0) :
    ¬ initParamBad s = true := mt (initParamBad_iff s).mp (not_or.mpr ⟨hiter, hdk⟩)

theorem initLengthsFit_iff (s : State) : initLengthsFit s = true ↔
    exceeds s.inputs.pwLen.toNat s.params.pwMax = false ∧ exceeds s.inputs.saltLen.toNat s.params.saltMax = false ∧
      exceeds s.inputs.dkLen.toNat s.params.dkMax = false := by
  simp only [initLengthsFit, exceeds_eq_not_fits, Bool.and_eq_true, Bool.not_eq_false', and_assoc]

/-! ### The key words at the boundary -/

/-- R163 in bytes: 16 words hold 64 bytes. -/
theorem keyWords_eq_ite (pw : List Byte) :
    keyWords pw = if 65 ≤ pw.length then (hashPort (bpack8 pw) (8 * pw.length)).words else bpack8 pw := by
  have hwords : 16 < (bpack8 pw).length ↔ 65 ≤ pw.length := by
    rw [length_bpack8_words, lt_divUp_iff (by omega), Nat.succ_le_iff]
  exact if_congr hwords rfl rfl

theorem keyWords_of_length_le {pw : List Byte} (h : pw.length ≤ 64) : keyWords pw = bpack8 pw := by
  rw [keyWords_eq_ite, if_neg (by omega)]

theorem keyWords_of_lt_length {pw : List Byte} (h : 65 ≤ pw.length) :
    keyWords pw = (hashPort (bpack8 pw) (8 * pw.length)).words := by
  rw [keyWords_eq_ite, if_pos h]

/-- The 20 bytes of a digest are short enough to be used as they are, and pack to its five words. -/
theorem keyWords_digestBytes (d : Digest) : keyWords (digestBytes d) = d.words := by
  rw [keyWords_of_length_le (by rw [length_digestBytes]; omega), bpack8_digestBytes]

/-- Settles O13: a long password's key words are its digest's five words, and a digest is a short password. -/
theorem keyShorteningBoundary : Obligations.KeyShorteningBoundary := by
  refine fun pw => ⟨keyWords_of_length_le, fun hlong => ?_⟩
  rw [keyWords_digestBytes, keyWords_of_lt_length hlong]
  exact ⟨rfl, length_digest_words _⟩

/-! ### `INIT` as a whole -/

theorem keyWords_passwordOperand (s : State) : keyWords (passwordOperand s) =
    if 65 ≤ s.inputs.pwLen.toNat then (hashPort (bpack8 (passwordOperand s)) (8 * (passwordOperand s).length)).words
    else bpack8 (passwordOperand s) :=
  (keyWords_eq_ite _).trans (if_congr (by rw [passwordOperand, length_readBytes]) rfl rfl)

/-- Settles O12: each clause is one outcome code, and the pads are those of the key words of the password. -/
theorem initConstructsTheEngine : Obligations.InitConstructsTheEngine := by
  refine ⟨decode_encode .init, fun s => ⟨fun hrun => ?_, fun hrun hzero => ?_, fun hrun hiter hdk hlong => ?_,
    fun hrun hiter hdk hpw hsalt hdkFits => ?_⟩⟩
  · exact exec_of_rejected (by rw [outcomeCode_init, if_pos hrun]) (by decide)
  · have hpar : initParamBad s = true := (initParamBad_iff s).mpr hzero
    exact exec_of_rejected (by rw [outcomeCode_init, if_neg hrun, if_pos hpar]) (by decide)
  · have hpar := not_initParamBad hiter hdk
    have hfit : ¬ initLengthsFit s = true := by
      rw [initLengthsFit_iff]
      rintro ⟨hpw, hsalt, hdkFits⟩
      simp [hpw, hsalt, hdkFits] at hlong
    exact exec_of_rejected (by rw [outcomeCode_init, if_neg hrun, if_neg hpar, if_neg hfit]) (by decide)
  · have hpar := not_initParamBad hiter hdk
    have hfit : initLengthsFit s = true := (initLengthsFit_iff s).mpr ⟨hpw, hsalt, hdkFits⟩
    have hok : outcomeCode .init s = .ok := by rw [outcomeCode_init, if_neg hrun, if_neg hpar, if_pos hfit]
    refine ⟨padWords (keyWords (passwordOperand s)) ipadWord, padWords (keyWords (passwordOperand s)) opadWord,
      exec_init_of_ok hok, fun k hk => ?_⟩
    intro pw key
    have hkey : key = keyWords (passwordOperand s) := (keyWords_passwordOperand s).symm
    rw [hkey]
    exact ⟨padWords_getElem _ ipadWord k hk, padWords_getElem _ opadWord k hk⟩

/-! ### What the construction depends on -/

theorem readBytes_congr {s s' : State} {space : ByteSpace} {n : Nat}
    (h : ∀ a, a < n → readByte s space a = readByte s' space a) : readBytes s space 0 n = readBytes s' space 0 n :=
  List.map_congr_left fun k hk => by rw [Nat.zero_add, h k (List.mem_range.mp hk)]

/-- R167 (j): the input registers and the two operands are all that enters the construction. -/
theorem constructEngine_congr {s s' : State} (hiter : s.inputs.iterCount = s'.inputs.iterCount)
    (hdk : s.inputs.dkLen = s'.inputs.dkLen) (hpw : passwordOperand s = passwordOperand s')
    (hsalt : saltOperand s = saltOperand s') : constructEngine s' =
      { constructEngine s with u := s'.engine.u, t0 := s'.engine.t0, result := s'.engine.result } := by
  simp only [constructEngine, hiter, hdk, hpw, hsalt]

/-- Settles O58: equal delimited bytes are equal operands, and the construction is made of the operands. -/
theorem constructionDependsOnTheInputsAlone : Obligations.ConstructionDependsOnTheInputsAlone := by
  intro s s' hok hok' hiter hdk hpwLen hsaltLen hpwBytes hsaltBytes
  have hpw : passwordOperand s = passwordOperand s' := by
    rw [passwordOperand, passwordOperand, readBytes_congr hpwBytes, hpwLen]
  have hsalt : saltOperand s = saltOperand s' := by
    rw [saltOperand, saltOperand, readBytes_congr hsaltBytes, hsaltLen]
  exact ⟨initialized s, initialized s', exec_init_of_ok hok, exec_init_of_ok hok',
    constructEngine_congr hiter hdk hpw hsalt⟩

end Sys2Proof.Machine

/-! What a chunk does in each of its three cases: inside a block, at the end of a block that is not the last, at the end
of the derivation (43_engine_run.md R186 to R191). -/

namespace Sys2Proof.Machine

open Sys2Proof

/-! ### The counters of a chunk -/

/-- A running engine rests within a block, before its end (R30). -/
theorem Inv.inBlock {s : State} (h : Inv s) (hrun : s.engine.phase = .running) :
    InBlock s.params s.engine ∧ s.engine.iter.toNat < s.engine.c.toNat :=
  (phaseInv_running_iff hrun).mp h.phase

theorem Inv.ipcPos {s : State} (h : Inv s) : 1 ≤ s.params.ipc := by
  have hparams := h.params
  rw [Params.wellFormed, Bool.and_eq_true] at hparams
  exact of_decide_eq_true hparams.1

/-- A chunk runs at least one iteration (R186). -/
theorem chunkSize_pos {s : State} (hipc : 1 ≤ s.params.ipc) (hlt : s.engine.iter.toNat < s.engine.c.toNat) :
    1 ≤ chunkSize s := by
  rw [chunkSize]
  omega

theorem iter_add_chunkSize_le {s : State} (hlt : s.engine.iter.toNat < s.engine.c.toNat) :
    s.engine.iter.toNat + chunkSize s ≤ s.engine.c.toNat := by
  rw [chunkSize]
  omega

theorem chunkProgress_same (s : State) : SameOutsideIteration (chunkProgress s).engine s.engine :=
  iterations_same _ _ _

theorem chunkProgress_iter {s : State} (hlt : s.engine.iter.toNat < s.engine.c.toNat) :
    (chunkProgress s).engine.iter.toNat = s.engine.iter.toNat + chunkSize s :=
  iterations_iter _ _ _ ((iter_add_chunkSize_le hlt).trans_lt s.engine.c.isLt)

theorem word_eq_ofNat_of_toNat {x : Word} {n : Nat} (h : x.toNat = n) : x = BitVec.ofNat 32 n := by
  rw [← h, BitVec.ofNat_toNat, BitVec.setWidth_eq]

/-- R187: the `Progress` of a chunk. -/
theorem chunkProgress_events {s : State} (hlt : s.engine.iter.toNat < s.engine.c.toNat) :
    (chunkProgress s).events =
      s.events ++ [.progress s.engine.blk (BitVec.ofNat 32 (s.engine.iter.toNat + chunkSize s))] := by
  rw [← word_eq_ofNat_of_toNat (chunkProgress_iter hlt), ← (chunkProgress_same s).blk]
  rfl

theorem chunkProgress_inBlock {s : State} (h : InBlock s.params s.engine)
    (hlt : s.engine.iter.toNat < s.engine.c.toNat) : InBlock s.params (chunkProgress s).engine :=
  iterations_inBlock h (iter_add_chunkSize_le hlt)

/-- `T` after the iterations of a chunk (R197). -/
theorem chunkProgress_t {s : State} (h : InBlock s.params s.engine)
    (hlt : s.engine.iter.toNat < s.engine.c.toNat) : (chunkProgress s).engine.t =
      tRef s.params.idxMask s.engine s.engine.blk (s.engine.iter.toNat + chunkSize s) := by
  have hsame := chunkProgress_same s
  rw [(chunkProgress_inBlock h hlt).chain.t, tRef_congr hsame.toSameKey, hsame.blk, chunkProgress_iter hlt]

/-- `U` after the iterations of a chunk (R197). -/
theorem chunkProgress_u {s : State} (h : InBlock s.params s.engine) (hipc : 1 ≤ s.params.ipc)
    (hlt : s.engine.iter.toNat < s.engine.c.toNat) : (chunkProgress s).engine.u =
      uRef s.params.idxMask s.engine s.engine.blk (s.engine.iter.toNat + chunkSize s - 1) := by
  have hsame := chunkProgress_same s
  have hiter := chunkProgress_iter hlt
  have hne : (chunkProgress s).engine.iter ≠ 0 := fun hzero => by
    have := chunkSize_pos hipc hlt
    have hsum : 0 = s.engine.iter.toNat + chunkSize s := by rw [← hiter, hzero]; rfl
    omega
  rw [(chunkProgress_inBlock h hlt).chain.u hne, uRef_congr hsame.toSameKey, hsame.blk, hiter]

/-! ### How a chunk ends -/

/-- R186: inside the block nothing follows the iterations. -/
theorem chunk_of_inside {s : State} (hlt : s.engine.iter.toNat < s.engine.c.toNat)
    (hinside : s.engine.iter.toNat + chunkSize s < s.engine.c.toNat) : chunk s = chunkProgress s :=
  if_pos (by rw [chunkProgress_iter hlt, (chunkProgress_same s).c]; exact hinside)

theorem chunk_of_end {s : State} (hlt : s.engine.iter.toNat < s.engine.c.toNat)
    (hend : s.engine.iter.toNat + chunkSize s = s.engine.c.toNat) : chunk s = chunkCompletion (chunkProgress s) :=
  if_neg (by rw [chunkProgress_iter hlt, (chunkProgress_same s).c, hend]; exact lt_irrefl _)

theorem isLastBlock_chunkProgress (s : State) : isLastBlock (chunkProgress s).engine = isLastBlock s.engine := by
  rw [isLastBlock, (chunkProgress_same s).blk, (chunkProgress_same s).blocks, isLastBlock]

/-- R188: at the end of a block that is not the last. -/
theorem chunk_of_inner_end {s : State} (hlt : s.engine.iter.toNat < s.engine.c.toNat)
    (hend : s.engine.iter.toNat + chunkSize s = s.engine.c.toNat) (hinner : isLastBlock s.engine = false) :
    chunk s = { chunkProgress s with engine := completeBlock (chunkProgress s).engine } := by
  rw [chunk_of_end hlt hend]
  exact if_neg (by rw [isLastBlock_chunkProgress, hinner]; exact Bool.false_ne_true)

/-- R190: at the end of the last block. -/
theorem chunk_of_last_end {s : State} (hlt : s.engine.iter.toNat < s.engine.c.toNat)
    (hend : s.engine.iter.toNat + chunkSize s = s.engine.c.toNat) (hlast : isLastBlock s.engine = true) :
    chunk s = finishDerivation { chunkProgress s with engine := completeBlock (chunkProgress s).engine } := by
  rw [chunk_of_end hlt hend]
  exact if_pos (by rw [isLastBlock_chunkProgress, hlast])

/-- The three ends of a chunk (R186). -/
theorem chunk_end_cases {s : State} (hlt : s.engine.iter.toNat < s.engine.c.toNat) :
    s.engine.iter.toNat + chunkSize s < s.engine.c.toNat ∨
    (s.engine.iter.toNat + chunkSize s = s.engine.c.toNat ∧ isLastBlock s.engine = false) ∨
    (s.engine.iter.toNat + chunkSize s = s.engine.c.toNat ∧ isLastBlock s.engine = true) := by
  rcases lt_or_eq_of_le (iter_add_chunkSize_le hlt) with hinside | hend
  · exact .inl hinside
  · cases isLastBlock s.engine
    · exact .inr (.inl ⟨hend, rfl⟩)
    · exact .inr (.inr ⟨hend, rfl⟩)

/-- R190: the `Done` event carries what `RESULT` then holds and the time then in `ELAPSED`. -/
theorem finishDerivation_events (s : State) : (finishDerivation s).events = s.events ++
    [.done (readBytes (finishDerivation s) .result 0 (finishDerivation s).engine.resultLen)
      (finishDerivation s).engine.elapsed] := rfl

/-! ### The key in `DONE` -/

/-- The valid part of `RESULT`, read as bytes, is the reference's (R43, R197). -/
theorem readBytes_result {s : State} (h : resultInv s.params s.engine) :
    readBytes s .result 0 s.engine.resultLen =
      (blocksHex s.params.idxMask s.engine s.engine.blocks.toNat).take s.engine.resultLen := by
  refine List.map_injective_iff.mpr (Option.some_injective _) ?_
  rw [← h, readBytes, List.map_map]
  refine List.map_congr_left fun k hk => ?_
  have hmem : s.engine.result.lookup k ∈ _ := h ▸ List.mem_map_of_mem hk
  obtain ⟨b, _, hb⟩ := List.mem_map.mp hmem
  simp [readByte, byteMem, ← hb]

/-- What `DONE` means for `BLK`, `ITER`, `T`, `RESULT_LEN` and `U` (R199). -/
theorem Inv.done {s : State} (h : Inv s) (hdone : s.engine.phase = .done) : Constructed s.params s.engine ∧
    s.engine.blk.toNat = s.engine.blocks.toNat + 1 ∧ s.engine.iter = 0 ∧ s.engine.t = Digest.zero ∧
    s.engine.resultLen = 2 * s.engine.dkLen.toNat ∧
    s.engine.u = uRef s.params.idxMask s.engine s.engine.blocks (s.engine.c.toNat - 1) := by
  have hphase := h.phase
  rwa [phaseInv, hdone] at hphase

theorem Inv.resultLen_of_done {s : State} (h : Inv s) (hdone : s.engine.phase = .done) :
    s.engine.resultLen = 2 * s.engine.dkLen.toNat := by
  obtain ⟨_, _, _, _, hlen, _⟩ := h.done hdone
  exact hlen

/-- In `DONE` the key stands in `RESULT` (R199). -/
theorem Inv.readBytes_of_done {s : State} (h : Inv s) (hdone : s.engine.phase = .done) :
    readBytes s .result 0 s.engine.resultLen =
      (blocksHex s.params.idxMask s.engine s.engine.blocks.toNat).take (2 * s.engine.dkLen.toNat) := by
  rw [readBytes_result h.resultPrefix, h.resultLen_of_done hdone]

/-- That key is the one of every engine with the same construction (R197). -/
theorem Inv.key_of_sameConstruction {s : State} (h : Inv s) (hdone : s.engine.phase = .done) {p : Params} {e : Engine}
    (hp : s.params = p) (he : SameConstruction s.engine e) : readBytes s .result 0 s.engine.resultLen =
      (blocksHex p.idxMask e e.blocks.toNat).take (2 * e.dkLen.toNat) := by
  rw [h.readBytes_of_done hdone, hp, blocksHex_congr he.toSameKey he.c, he.blocks, he.dkLen]

end Sys2Proof.Machine

/-! A whole derivation: where it stands after each of its chunks, and the engine and the events at its end
(43_engine_run.md R190, R192). -/

namespace Sys2Proof.Machine

open Sys2Proof

/-! ### Blocks, whatever the chunk size -/

/-- A whole block: its `C` iterations and its completion (R186, R188). -/
def wholeBlock (mask : IdxMask) (e : Engine) : Engine := completeBlock (iterations mask e.c.toNat e)

theorem iterations_add (mask : IdxMask) (m n : Nat) (e : Engine) :
    iterations mask (m + n) e = iterations mask n (iterations mask m e) := by
  induction m generalizing e with
  | zero => rw [Nat.zero_add]; rfl
  | succ m ih => rw [Nat.succ_add, iterations, iterations, ih]

theorem SameConstruction.trans {e e' e'' : Engine} (h : SameConstruction e e') (h' : SameConstruction e' e'') :
    SameConstruction e e'' :=
  ⟨⟨h.ipad.trans h'.ipad, h.opad.trans h'.opad, h.saltL.trans h'.saltL⟩, h.c.trans h'.c, h.dkLen.trans h'.dkLen,
    h.blocks.trans h'.blocks⟩

theorem wholeBlock_iterate_sameConstruction (mask : IdxMask) (b : Nat) (e : Engine) :
    SameConstruction ((wholeBlock mask)^[b] e) e := by
  induction b with
  | zero => exact .refl e
  | succ b ih =>
    have hs := iterations_sameConstruction mask ((wholeBlock mask)^[b] e).c.toNat ((wholeBlock mask)^[b] e)
    rw [Function.iterate_succ_apply']
    exact .trans ⟨⟨hs.ipad, hs.opad, hs.saltL⟩, hs.c, hs.dkLen, hs.blocks⟩ ih

/-! ### The events of a derivation -/

/-- The chunks of one block (R192). -/
def blockChunks (p : Params) (e : Engine) : Nat := divUp e.c.toNat p.ipc

theorem length_blockProgress (p : Params) (e : Engine) (i : Nat) :
    (blockProgress p e i).length = blockChunks p e := by simp [blockProgress, blockChunks]

theorem length_derivationProgress (p : Params) (e : Engine) :
    (derivationProgress p e).length = chunkCount p e := by
  simp [derivationProgress, List.length_flatMap, length_blockProgress, chunkCount, blockChunks]

/-- The `Progress` of chunk `q + 1` of block `b + 1`. -/
theorem getElem?_derivationProgress {p : Params} {e : Engine} {b q : Nat} (hb : b < e.blocks.toNat)
    (hq : q < blockChunks p e) : (derivationProgress p e)[blockChunks p e * b + q]? =
      some (.progress (BitVec.ofNat 32 (b + 1)) (BitVec.ofNat 32 (min ((q + 1) * p.ipc) e.c.toNat))) := by
  have hlen (k : Nat) : (blockProgress p e (k + 1)).length = blockChunks p e := length_blockProgress p e _
  have hq' : q < divUp e.c.toNat p.ipc := hq
  rw [derivationProgress, getElem?_flatMap_of_length hlen _ _ hq, List.getElem?_range hb, Option.bind_some,
    blockProgress, List.getElem?_map, List.getElem?_range hq', Option.map_some]

/-! ### Where a derivation stands -/

/-- `s` is where the derivation begun in `s₀` stands after `b` whole blocks and `q` chunks of the next one. -/
structure AfterChunks (s₀ : State) (b q : Nat) (s : State) : Prop where
  inv : Inv s
  params : s.params = s₀.params
  construction : SameConstruction s.engine s₀.engine
  running : s.engine.phase = .running
  blk : s.engine.blk.toNat = b + 1
  iter : s.engine.iter.toNat = q * s₀.params.ipc
  engine : s.engine = iterations s₀.params.idxMask (q * s₀.params.ipc) ((wholeBlock s₀.params.idxMask)^[b] s₀.engine)
  events : s.events = s₀.events ++
    (derivationProgress s₀.params s₀.engine).take (blockChunks s₀.params s₀.engine * b + q)

/-- `t` is where the derivation begun in `s₀` ends (R190). -/
structure Finished (s₀ t : State) : Prop where
  inv : Inv t
  params : t.params = s₀.params
  construction : SameConstruction t.engine s₀.engine
  done : t.engine.phase = .done
  engine : t.engine = { (wholeBlock s₀.params.idxMask)^[s₀.engine.blocks.toNat] s₀.engine with
    elapsed := t.engine.elapsed, phase := .done }
  events : t.events = s₀.events ++ derivationProgress s₀.params s₀.engine ++
    [.done (readBytes t .result 0 t.engine.resultLen) t.engine.elapsed]

theorem afterChunks_zero {s : State} (h : Inv s) (hrun : s.engine.phase = .running) (hblk : s.engine.blk = 1)
    (hiter : s.engine.iter = 0) : AfterChunks s 0 0 s where
  inv := h
  params := rfl
  construction := .refl _
  running := hrun
  blk := congrArg BitVec.toNat hblk
  iter := (congrArg BitVec.toNat hiter).trans (Nat.zero_mul _).symm
  engine := by rw [Nat.zero_mul]; rfl
  events := by rw [Nat.mul_zero, List.take_zero, List.append_nil]

section

variable {s₀ s : State} {b q : Nat}

theorem AfterChunks.blk_eq (h : AfterChunks s₀ b q s) : s.engine.blk = BitVec.ofNat 32 (b + 1) :=
  word_eq_ofNat_of_toNat h.blk

/-- The derivation never leaves its blocks. -/
theorem AfterChunks.lt_blocks (h : AfterChunks s₀ b q s) : b < s₀.engine.blocks.toNat := by
  have hle := (h.inv.inBlock h.running).1.blkLe
  rw [h.construction.blocks, h.blk] at hle
  omega

theorem AfterChunks.iter_lt (h : AfterChunks s₀ b q s) : s.engine.iter.toNat < s.engine.c.toNat :=
  (h.inv.inBlock h.running).2

theorem AfterChunks.ipcPos (h : AfterChunks s₀ b q s) : 1 ≤ s₀.params.ipc := h.params ▸ h.inv.ipcPos

theorem AfterChunks.lt_blockChunks (h : AfterChunks s₀ b q s) : q < blockChunks s₀.params s₀.engine := by
  rw [blockChunks, lt_divUp_iff h.ipcPos, ← h.construction.c, ← h.iter]
  exact h.iter_lt

/-- `ITER` after the next chunk's iterations (R186). -/
theorem AfterChunks.iter_add_chunkSize (h : AfterChunks s₀ b q s) :
    s.engine.iter.toNat + chunkSize s = min ((q + 1) * s₀.params.ipc) s₀.engine.c.toNat := by
  have hlt := h.iter_lt
  rw [chunkSize, h.params, ← h.construction.c, Nat.succ_mul, ← h.iter]
  omega

theorem AfterChunks.progress_engine (h : AfterChunks s₀ b q s) : (chunkProgress s).engine =
    iterations s₀.params.idxMask (min ((q + 1) * s₀.params.ipc) s₀.engine.c.toNat)
      ((wholeBlock s₀.params.idxMask)^[b] s₀.engine) := by
  rw [chunkProgress_engine, ← h.iter_add_chunkSize, iterations_add, h.iter, ← h.engine, h.params]

theorem AfterChunks.progress_events (h : AfterChunks s₀ b q s) : (chunkProgress s).events =
    s₀.events ++ (derivationProgress s₀.params s₀.engine).take (blockChunks s₀.params s₀.engine * b + (q + 1)) := by
  rw [chunkProgress_events h.iter_lt, h.events, h.iter_add_chunkSize, h.blk_eq, ← Nat.add_assoc,
    List.take_add_one, getElem?_derivationProgress h.lt_blocks h.lt_blockChunks, List.append_assoc]
  rfl

/-- A chunk that does not complete its block. -/
theorem AfterChunks.chunk_inside (h : AfterChunks s₀ b q s) (hq : q + 1 < blockChunks s₀.params s₀.engine) :
    AfterChunks s₀ b (q + 1) (chunk s) := by
  have hc : (q + 1) * s₀.params.ipc < s₀.engine.c.toNat := (lt_divUp_iff h.ipcPos).mp hq
  have hiter := h.iter_add_chunkSize
  have hengine := h.progress_engine
  rw [min_eq_left hc.le] at hiter hengine
  have hchunk : chunk s = chunkProgress s :=
    chunk_of_inside h.iter_lt (by rw [hiter, h.construction.c]; exact hc)
  have hsame := chunkProgress_same s
  have hinv := chunk_inv h.inv h.running
  have hcons := (chunk_sameConstruction s).trans h.construction
  rw [hchunk] at hinv hcons ⊢
  exact {
    inv := hinv
    params := h.params
    construction := hcons
    running := hsame.phase.trans h.running
    blk := hsame.blk.symm ▸ h.blk
    iter := (chunkProgress_iter h.iter_lt).trans hiter
    engine := hengine
    events := h.progress_events }

/-- The last chunk of a block completes it, whatever the chunk size. -/
theorem AfterChunks.block_end (h : AfterChunks s₀ b q s) (hq : q + 1 = blockChunks s₀.params s₀.engine) :
    s.engine.iter.toNat + chunkSize s = s.engine.c.toNat ∧
    completeBlock (chunkProgress s).engine = (wholeBlock s₀.params.idxMask)^[b + 1] s₀.engine := by
  have hc : s₀.engine.c.toNat ≤ (q + 1) * s₀.params.ipc := (divUp_le_iff h.ipcPos).mp hq.ge
  have hiter := h.iter_add_chunkSize
  have hengine := h.progress_engine
  rw [min_eq_right hc] at hiter hengine
  have hcBlock := (wholeBlock_iterate_sameConstruction s₀.params.idxMask b s₀.engine).c
  refine ⟨by rw [hiter, h.construction.c], ?_⟩
  rw [hengine, Function.iterate_succ_apply', wholeBlock, hcBlock]

/-- A chunk that completes a block which is not the last. -/
theorem AfterChunks.chunk_inner_end (h : AfterChunks s₀ b q s) (hq : q + 1 = blockChunks s₀.params s₀.engine)
    (hb : b + 1 < s₀.engine.blocks.toNat) : AfterChunks s₀ (b + 1) 0 (chunk s) := by
  obtain ⟨hend, hengine⟩ := h.block_end hq
  have hinner : isLastBlock s.engine = false := by
    refine Bool.eq_false_iff.mpr fun hlast => ?_
    have hblk := congrArg BitVec.toNat ((isLastBlock_iff _).mp hlast)
    rw [h.blk, h.construction.blocks] at hblk
    omega
  have hchunk := chunk_of_inner_end h.iter_lt hend hinner
  have hevents := h.progress_events
  rw [hq, ← Nat.mul_succ] at hevents
  have hin := chunkProgress_inBlock (h.inv.inBlock h.running).1 h.iter_lt
  have hsame := chunkProgress_same s
  have hinv := chunk_inv h.inv h.running
  have hcons := (chunk_sameConstruction s).trans h.construction
  rw [hchunk] at hinv hcons ⊢
  exact {
    inv := hinv
    params := h.params
    construction := hcons
    running := hsame.phase.trans h.running
    blk := hin.toNat_blk_succ.trans (by rw [hsame.blk, h.blk])
    iter := (Nat.zero_mul _).symm
    engine := by rw [Nat.zero_mul]; exact hengine
    events := hevents }

/-- The chunk that completes the last block. -/
theorem AfterChunks.chunk_last_end (h : AfterChunks s₀ b q s) (hq : q + 1 = blockChunks s₀.params s₀.engine)
    (hb : b + 1 = s₀.engine.blocks.toNat) : Finished s₀ (chunk s) := by
  obtain ⟨hend, hengine⟩ := h.block_end hq
  have hlast : isLastBlock s.engine = true :=
    (isLastBlock_iff _).mpr (BitVec.eq_of_toNat_eq (by rw [h.blk, hb, h.construction.blocks]))
  have hchunk := chunk_of_last_end h.iter_lt hend hlast
  have hall : (derivationProgress s₀.params s₀.engine).take (blockChunks s₀.params s₀.engine * b + (q + 1)) =
      derivationProgress s₀.params s₀.engine :=
    List.take_of_length_le (by rw [length_derivationProgress, hq, ← Nat.mul_succ, Nat.succ_eq_add_one, hb,
      chunkCount, Nat.mul_comm]; rfl)
  have hinv := chunk_inv h.inv h.running
  have hcons := (chunk_sameConstruction s).trans h.construction
  rw [hchunk] at hinv hcons ⊢
  exact {
    inv := hinv
    params := h.params
    construction := hcons
    done := rfl
    engine := by rw [← hb, ← hengine]; rfl
    events := by rw [finishDerivation_events, ← hall, ← h.progress_events] }

end

/-! ### The chunks counted through -/

theorem chunkCount_eq (p : Params) (e : Engine) : chunkCount p e = blockChunks p e * e.blocks.toNat := Nat.mul_comm _ _

/-- `s` is where the derivation begun in `s₀` stands after `k` chunks: within a block, or with the last chunk at the end. -/
def AtChunk (s₀ : State) (k : Nat) (s : State) : Prop :=
  (∃ b q, k = blockChunks s₀.params s₀.engine * b + q ∧ AfterChunks s₀ b q s) ∨
  (k = chunkCount s₀.params s₀.engine ∧ Finished s₀ s)

theorem AfterChunks.index_lt {s₀ s : State} {b q : Nat} (h : AfterChunks s₀ b q s) :
    blockChunks s₀.params s₀.engine * b + q < chunkCount s₀.params s₀.engine := by
  rw [chunkCount_eq]
  calc blockChunks s₀.params s₀.engine * b + q
      < blockChunks s₀.params s₀.engine * (b + 1) := Nat.add_lt_add_left h.lt_blockChunks _
    _ ≤ blockChunks s₀.params s₀.engine * s₀.engine.blocks.toNat := Nat.mul_le_mul_left _ h.lt_blocks

theorem atChunk_zero {s : State} (h : Inv s) (hrun : s.engine.phase = .running) (hblk : s.engine.blk = 1)
    (hiter : s.engine.iter = 0) : AtChunk s 0 s :=
  .inl ⟨0, 0, rfl, afterChunks_zero h hrun hblk hiter⟩

section

variable {s₀ s : State} {k : Nat}

theorem AtChunk.running (h : AtChunk s₀ k s) (hk : k < chunkCount s₀.params s₀.engine) : s.engine.phase = .running := by
  rcases h with ⟨_, _, _, h⟩ | ⟨rfl, _⟩
  · exact h.running
  · exact absurd hk (lt_irrefl _)

theorem AtChunk.finished (h : AtChunk s₀ (chunkCount s₀.params s₀.engine) s) : Finished s₀ s := by
  rcases h with ⟨_, _, hk, h⟩ | ⟨_, h⟩
  · exact absurd h.index_lt hk.not_gt
  · exact h

/-- One chunk further (R192). -/
theorem AtChunk.next (h : AtChunk s₀ k s) (hk : k < chunkCount s₀.params s₀.engine) :
    AtChunk s₀ (k + 1) (chunk s) := by
  rcases h with ⟨b, q, rfl, h⟩ | ⟨rfl, _⟩
  · rcases lt_or_eq_of_le (Nat.succ_le_of_lt h.lt_blockChunks) with hq | hq
    · exact .inl ⟨b, q + 1, rfl, h.chunk_inside hq⟩
    · have hindex : blockChunks s₀.params s₀.engine * b + q + 1 = blockChunks s₀.params s₀.engine * (b + 1) :=
        congrArg (blockChunks s₀.params s₀.engine * b + ·) hq
      rcases lt_or_eq_of_le (Nat.succ_le_of_lt h.lt_blocks) with hb | hb
      · exact .inl ⟨b + 1, 0, hindex, h.chunk_inner_end hq hb⟩
      · exact .inr ⟨by rw [hindex, chunkCount_eq, ← hb], h.chunk_last_end hq hb⟩
  · exact absurd hk (lt_irrefl _)

/-- Where a derivation stands does not depend on `ERR`. -/
theorem AtChunk.accepted (h : AtChunk s₀ k s) : AtChunk s₀ k (accept s) := by
  rcases h with ⟨b, q, hk, h⟩ | ⟨hk, h⟩
  · exact .inl ⟨b, q, hk, { h with inv := accept_inv h.inv }⟩
  · exact .inr ⟨hk, { h with inv := accept_inv h.inv }⟩

end

/-! ### Runs of `STEP` -/

theorem runCommands_append {is : List Instr} {s t : State} (h : runCommands is s = .next t) (js : List Instr) :
    runCommands (is ++ js) s = runCommands js t := by
  induction is generalizing s with
  | nil => cases h; rfl
  | cons i is ih =>
    obtain ⟨m, he⟩ := exec_answers i s
    rw [runCommands_cons he] at h
    rw [List.cons_append, runCommands_cons he, ih h]

/-- R182: `STEP` in `RUNNING`. -/
theorem exec_step_of_running {s : State} (h : s.engine.phase = .running) : exec .step s = .next (accept (chunk s)) :=
  if_pos h

theorem runCommands_steps {s₀ : State} (h : AtChunk s₀ 0 s₀) {k : Nat} (hk : k ≤ chunkCount s₀.params s₀.engine) :
    ∃ m, runCommands (List.replicate k .step) s₀ = .next m ∧ AtChunk s₀ k m := by
  induction k with
  | zero => exact ⟨s₀, rfl, h⟩
  | succ k ih =>
    obtain ⟨m, hm, hat⟩ := ih (Nat.le_of_succ_le hk)
    refine ⟨accept (chunk m), ?_, (hat.next hk).accepted⟩
    rw [List.replicate_succ', runCommands_append hm, runCommands_cons (exec_step_of_running (hat.running hk)), runCommands]

/-- R192: from the beginning, exactly `BLOCKS * ceil(C/IPC)` `STEP`s finish a derivation. -/
theorem runCommands_steps_finished {s : State} (h : AtChunk s 0 s) :
    ∃ t, runCommands (List.replicate (chunkCount s.params s.engine) .step) s = .next t ∧ Finished s t := by
  obtain ⟨t, ht, hat⟩ := runCommands_steps h le_rfl
  exact ⟨t, ht, hat.finished⟩

/-- R197: the key of a finished derivation is that of the construction it began with. -/
theorem Finished.key {s₀ t : State} (h : Finished s₀ t) : readBytes t .result 0 t.engine.resultLen =
    (blocksHex s₀.params.idxMask s₀.engine s₀.engine.blocks.toNat).take (2 * s₀.engine.dkLen.toNat) :=
  h.inv.key_of_sameConstruction h.done h.params h.construction

/-- Settles O51: each `STEP` is one chunk further, and the last one finishes the derivation. -/
theorem derivationCompletesAfterItsChunks : Obligations.DerivationCompletesAfterItsChunks := by
  intro s hinv hrun hblk hiter
  have h := atChunk_zero hinv hrun hblk hiter
  refine ⟨fun k hk => ?_, ?_⟩
  · obtain ⟨m, hm, hat⟩ := runCommands_steps h hk.le
    exact ⟨m, hm, hat.running hk⟩
  · obtain ⟨t, ht, hfin⟩ := runCommands_steps_finished h
    exact ⟨t, ht, hfin.done, by rw [hfin.events, hfin.key], hfin.key⟩

/-- `IPC` is in the invariant through its positivity alone. -/
theorem Inv.withIpc {s : State} (h : Inv s) (hrun : s.engine.phase = .running) {ipc : Nat} (hipc : 1 ≤ ipc) :
    Inv { s with params := { s.params with ipc := ipc } } := by
  obtain ⟨hin, hlt⟩ := h.inBlock hrun
  have hdk : s.params.dkMaxFits = true := (Bool.and_eq_true_iff.mp h.params).2
  exact { h with
    params := Bool.and_eq_true_iff.mpr ⟨decide_eq_true hipc, hdk⟩
    phase := (phaseInv_running_iff hrun).mpr ⟨{ hin with constructed := { hin.constructed with } }, hlt⟩ }

/-- Settles O52: both runs end with the same whole blocks, and these do not know the chunk size. -/
theorem chunkSizeDoesNotAffectTheKey : Obligations.ChunkSizeDoesNotAffectTheKey := by
  intro s ipc hinv hrun hblk hiter hipc s'
  obtain ⟨t, ht, hfin⟩ := runCommands_steps_finished (atChunk_zero hinv hrun hblk hiter)
  obtain ⟨t', ht', hfin'⟩ := runCommands_steps_finished (s := s') (atChunk_zero (hinv.withIpc hrun hipc) hrun hblk hiter)
  refine ⟨t, t', ht, ht', hfin.done, hfin'.done, ?_⟩
  rw [hfin.engine, hfin'.engine]

end Sys2Proof.Machine

/-! `START`, `STEP`, `ABORT` and the engine's own step, one by one, and which transitions move the engine
(43_engine_run.md R181 to R185, R193, R196). -/

namespace Sys2Proof.Machine

open Sys2Proof

/-! ### The commands of the run -/

/-- The state an accepted `START` leaves (R181). -/
def started (s : State) : State :=
  accept (consumeNow { s with engine := { s.engine with t0 := nowValue s, phase := .running } })

/-- The state an accepted `ABORT` leaves (R193). -/
def aborted (s : State) : State := accept { s with engine := abortEngine s.engine }

theorem exec_start_of_idle {s : State} (h : s.engine.phase = .idle) : exec .start s = .next (started s) := if_pos h

theorem exec_start_of_not_idle {s : State} (h : s.engine.phase ≠ .idle) :
    exec .start s = .next (reject .badPhase s) := if_neg h

theorem exec_step_of_not_running {s : State} (h : s.engine.phase ≠ .running) :
    exec .step s = .next (reject .badPhase s) := if_neg h

theorem exec_abort_of_running {s : State} (h : s.engine.phase = .running) : exec .abort s = .next (aborted s) := if_pos h

theorem exec_abort_of_not_running {s : State} (h : s.engine.phase ≠ .running) :
    exec .abort s = .next (reject .badPhase s) := if_neg h

/-- R181, R30: what an idle engine is. -/
theorem Inv.idle {s : State} (h : Inv s) (hidle : s.engine.phase = .idle) : Constructed s.params s.engine ∧
    s.engine.blk = 1 ∧ s.engine.iter = 0 ∧ s.engine.t = Digest.zero ∧ s.engine.resultLen = 0 ∧ s.engine.elapsed = 0 := by
  have hphase := h.phase
  rwa [phaseInv, hidle] at hphase

/-- Settles O14: the arms of `START`, what the invariant says of `IDLE`, and `ABORT`, which leads there. -/
theorem startBeginsTheDerivation : Obligations.StartBeginsTheDerivation := by
  refine ⟨decode_encode .start, fun s => ⟨exec_start_of_idle, fun hidle h => ?_, exec_start_of_not_idle, fun hrun => ?_⟩⟩
  · obtain ⟨_, hblk, hiter, ht, hlen, _⟩ := h.idle hidle
    exact ⟨hblk, hiter, ht, hlen⟩
  · rw [runCommands_cons (exec_abort_of_running hrun), runCommands_cons (exec_start_of_idle (s := aborted s) rfl),
      started, aborted, abortEngine, ← hrun]
    rfl

/-- Settles O15: the arms of `STEP`. -/
theorem stepRunsOneChunk : Obligations.StepRunsOneChunk :=
  ⟨decode_encode .step, fun _ => ⟨exec_step_of_running, exec_step_of_not_running⟩⟩

/-- Settles O19: the arms of `ABORT`. -/
theorem abortReturnsToIdle : Obligations.AbortReturnsToIdle :=
  ⟨decode_encode .abort, fun _ => ⟨exec_abort_of_running, exec_abort_of_not_running⟩⟩

/-! ### The engine's own step -/

/-- R185: the engine's own step, with `AUTO = 1` in `RUNNING`. -/
theorem engineTurn_of_enabled {s : State} (hauto : s.ctrl.auto = true) (hrun : s.engine.phase = .running) :
    engineTurn s = chunk s :=
  if_pos (by rw [engineEnabled, hauto, decide_eq_true hrun, Bool.true_and])

theorem engineTurn_of_disabled {s : State} (h : s.ctrl.auto = false ∨ s.engine.phase ≠ .running) : engineTurn s = s :=
  if_neg (by rcases h with h | h <;> simp [engineEnabled, h])

/-- With nothing pending the step is the engine's turn (log 2). -/
theorem step_of_no_pending {s : State} (h : s.pending = []) : step s = .next (engineTurn s) := by
  simp only [step, nextTurn, h]

/-- Settles O7: the engine's turn, enabled and not. -/
theorem restsWhenNothingIsPending : Obligations.RestsWhenNothingIsPending := by
  refine fun s hp => ⟨fun hauto hrun => ?_, fun hoff => ?_⟩
  · rw [step_of_no_pending hp, engineTurn_of_enabled hauto hrun]
  · rw [step_of_no_pending hp, engineTurn_of_disabled hoff]

/-- Settles O16: the engine's turn is the chunk, which keeps `ERR`; `STEP` is the chunk and `ERR = OK`. -/
theorem enginesOwnStepIsTheChunk : Obligations.EnginesOwnStepIsTheChunk := by
  refine fun s rest hp => ⟨fun hauto hrun => ?_, fun hoff => ?_⟩
  · have hturn := engineTurn_of_enabled (s := { s with pending := rest }) hauto hrun
    exact ⟨chunk { s with pending := rest }, (step_of_pending hp).trans (congrArg Host.Outcome.next hturn),
      (chunk_frame _).err, exec_step_of_running hrun⟩
  · have hturn := engineTurn_of_disabled (s := { s with pending := rest }) hoff
    exact (step_of_pending hp).trans (congrArg Host.Outcome.next hturn)

/-! ### What moves the sequencing state -/

/-- The sequencing state of R196. -/
def sequencing (e : Engine) : Phase × Word × Word := (e.phase, e.blk, e.iter)

/-- A codec command leaves the engine (R117). -/
theorem exec_codec_engine {i : Instr} {s t : State} (hi : i = .pack ∨ i = .unpack) (he : exec i s = .next t) :
    t.engine = s.engine := by
  rcases exec_codec_cases hi he with ⟨_, rfl⟩ | rfl <;> rfl

/-- A command that moves the sequencing state is one of the engine's four, and accepted (R196). -/
theorem exec_moves {i : Instr} {s t : State} (he : exec i s = .next t)
    (hne : sequencing t.engine ≠ sequencing s.engine) :
    i ∈ [Instr.init, .start, .step, .abort] ∧ outcomeCode i s = .ok := by
  rcases exec_rejected_or_accepted he with ⟨_, rfl⟩ | ⟨hok, _⟩
  · exact absurd rfl hne
  refine ⟨?_, hok⟩
  cases i with
  | init | start | step | abort => decide
  | pack => exact absurd (congrArg sequencing (exec_codec_engine (.inl rfl) he)) hne
  | unpack => exact absurd (congrArg sequencing (exec_codec_engine (.inr rfl) he)) hne

/-- R46 (a): of the commands, `START` alone enters `RUNNING`, from `IDLE`. -/
theorem exec_enters_running {i : Instr} {s t : State} (he : exec i s = .next t) (hrun : t.engine.phase = .running)
    (hnot : s.engine.phase ≠ .running) : i = .start ∧ s.engine.phase = .idle := by
  cases i with
  | init =>
    rcases execInit_cases he with ⟨_, rfl⟩ | ⟨_, _, rfl⟩ | ⟨_, _, _, rfl⟩ | ⟨_, _, _, rfl⟩
    · exact absurd hrun hnot
    · exact absurd hrun hnot
    · exact absurd hrun hnot
    · exact nomatch hrun
  | start =>
    rcases execStart_cases he with ⟨hidle, _⟩ | ⟨_, rfl⟩
    · exact ⟨rfl, hidle⟩
    · exact absurd hrun hnot
  | step =>
    rcases execStep_cases he with ⟨hwas, _⟩ | ⟨_, rfl⟩
    · exact absurd hwas hnot
    · exact absurd hrun hnot
  | abort =>
    rcases execAbort_cases he with ⟨hwas, _⟩ | ⟨_, rfl⟩
    · exact absurd hwas hnot
    · exact absurd hrun hnot
  | pack => exact absurd (exec_codec_engine (.inl rfl) he ▸ hrun) hnot
  | unpack => exact absurd (exec_codec_engine (.inr rfl) he ▸ hrun) hnot

/-- An engine's turn that moves anything is an enabled one (R185). -/
theorem engineTurn_moves {s : State} (hne : (engineTurn s).engine ≠ s.engine) :
    s.ctrl.auto = true ∧ s.engine.phase = .running := by
  by_contra hoff
  rw [not_and_or, Bool.not_eq_true] at hoff
  exact hne (congrArg State.engine (engineTurn_of_disabled hoff))

/-- The turns still to come have no part in a command's outcome. -/
theorem outcomeCode_withPending (i : Instr) (s : State) (rest : List Turn) :
    outcomeCode i { s with pending := rest } = outcomeCode i s := by cases i <;> rfl

/-- What a turn that changes the engine can be: the engine's own, reset, or the word of a command. -/
theorem takeTurn_moves {turn : Turn} {s t : State} (ht : takeTurn turn s = .next t) (hne : t.engine ≠ s.engine) :
    (turn = .engine ∧ t = engineTurn s) ∨ (turn = .reset ∧ t = resetBlock s) ∨
      ∃ i, turn = .wr 0 (encode i) ∧ exec i s = .next t := by
  rcases takeTurn_cases ht with ⟨r, rfl⟩ | ⟨r, v, _, _, rfl⟩ | ⟨space, a, b, _, rfl⟩ | ⟨a, w, _, rfl⟩ | hturn |
    hturn | ⟨w, _, rfl⟩ | ⟨w, i, rfl, hdecode, hexec⟩
  · exact absurd rfl hne
  · exact absurd (writeReg_frame s r v).engine hne
  · exact absurd (hostWriteByte_frame s space a b).engine hne
  · exact absurd (hostWriteCw_frame s a w).engine hne
  · exact .inl hturn
  · exact .inr (.inl hturn)
  · exact absurd rfl hne
  · exact .inr (.inr ⟨i, by rw [encode_of_decode hdecode], hexec⟩)

/-- A step that changes the engine is the engine's own, reset, or a command at the head of the pending turns. -/
theorem step_moves {s t : State} (h : step s = .next t) (hne : t.engine ≠ s.engine) :
    ((s.pending = [] ∨ s.pending.head? = some .engine) ∧ s.ctrl.auto = true ∧ s.engine.phase = .running) ∨
    (s.pending.head? = some .reset ∧ t.engine.phase = .unconf) ∨
    ∃ i rest, s.pending = .wr 0 (encode i) :: rest ∧ exec i { s with pending := rest } = .next t := by
  rcases step_cases h with ⟨hp, rfl⟩ | ⟨turn, rest, hp, ht⟩
  · exact .inl ⟨.inl hp, engineTurn_moves hne⟩
  · rw [hp, List.head?_cons]
    rcases takeTurn_moves ht hne with ⟨rfl, rfl⟩ | ⟨rfl, rfl⟩ | ⟨i, rfl, hexec⟩
    · exact .inl ⟨.inr rfl, engineTurn_moves (s := { s with pending := rest }) hne⟩
    · exact .inr (.inl ⟨rfl, rfl⟩)
    · exact .inr (.inr ⟨i, rest, rfl, hexec⟩)

/-- Settles O49: of the steps that change the engine, each kind is a listed one, and only `START` enters `RUNNING`. -/
theorem onlyListedTransitionsMoveTheEngine : Obligations.OnlyListedTransitionsMoveTheEngine := by
  refine fun s t h => ⟨fun hne => ?_, fun hrun hnot => ?_⟩
  · rcases step_moves h fun heq => hne (congrArg sequencing heq) with hown | ⟨hreset, _⟩ | ⟨i, rest, hp, hexec⟩
    · exact .inr (.inr hown)
    · exact .inl hreset
    · obtain ⟨hi, hok⟩ := exec_moves hexec hne
      exact .inr (.inl ⟨i, hi, congrArg List.head? hp, outcomeCode_withPending i s rest ▸ hok⟩)
  · rcases step_moves h fun heq => hnot (heq ▸ hrun) with ⟨_, _, hwas⟩ | ⟨_, hunconf⟩ | ⟨i, rest, hp, hexec⟩
    · exact absurd hwas hnot
    · exact nomatch hrun.symm.trans hunconf
    · obtain ⟨rfl, hidle⟩ := exec_enters_running hexec hrun hnot
      exact ⟨congrArg List.head? hp, hidle⟩

end Sys2Proof.Machine

/-! Runs that reach the key: after a start and an abort, by the engine's own steps, under any interleaving
(43_engine_run.md R185, R192, R193; 60_exceptions.md R238). -/

namespace Sys2Proof.Machine

open Sys2Proof

/-! ### From `IDLE` to the key -/

/-- `START` in `IDLE` begins a derivation (R181). -/
theorem atChunk_started {s : State} (h : Inv s) (hidle : s.engine.phase = .idle) : AtChunk (started s) 0 (started s) := by
  obtain ⟨_, hblk, hiter, _⟩ := h.idle hidle
  exact atChunk_zero (exec_inv h (exec_start_of_idle hidle)) rfl hblk hiter

/-- `START` and the `STEP`s of the whole derivation reach its end. -/
theorem runCommands_start_finished {s : State} (h : Inv s) (hidle : s.engine.phase = .idle) :
    ∃ t, runCommands (.start :: List.replicate (chunkCount s.params s.engine) .step) s = .next t ∧
      Finished (started s) t := by
  obtain ⟨t, ht, hfin⟩ := runCommands_steps_finished (atChunk_started h hidle)
  exact ⟨t, (runCommands_cons (exec_start_of_idle hidle) _).trans ht, hfin⟩

/-- Settles O54: `ABORT` leads to `IDLE` with the construction kept, and from there the derivation runs to its end. -/
theorem restartAfterAbortReachesTheKey : Obligations.RestartAfterAbortReachesTheKey := by
  intro s hinv hrun
  have habort := exec_abort_of_running hrun
  obtain ⟨t, ht, hfin⟩ := runCommands_start_finished (s := aborted s) (exec_inv hinv habort) rfl
  have hcons : SameConstruction t.engine s.engine := { hfin.construction with }
  exact ⟨t, (runCommands_cons habort _).trans ht, hfin.done, by rw [hfin.inv.resultLen_of_done hfin.done, hcons.dkLen],
    hfin.inv.key_of_sameConstruction hfin.done hfin.params hcons⟩

/-! ### The engine by itself -/

/-- Running one step more. -/
theorem runSteps_succ {n : Nat} {s m t : State} (h : runSteps n s = .next m) (hstep : step m = .next t) :
    runSteps (n + 1) s = .next t := by
  induction n generalizing s with
  | zero => cases h; simp only [runSteps, hstep]
  | succ n ih =>
    rw [runSteps] at h ⊢
    cases hs : step s with
    | next s' => rw [hs] at h; exact ih h
    | fault r => exact nomatch r
    | refused r => rw [hs] at h; exact nomatch h

/-- With `AUTO = 1` and nothing pending each step is a chunk. -/
theorem runSteps_auto {s : State} (h : AtChunk s 0 s) (hp : s.pending = []) (hauto : s.ctrl.auto = true) {k : Nat}
    (hk : k ≤ chunkCount s.params s.engine) :
    ∃ m, runSteps k s = .next m ∧ AtChunk s k m ∧ m.pending = [] ∧ m.ctrl.auto = true ∧ m.ctrl.err = s.ctrl.err := by
  induction k with
  | zero => exact ⟨s, rfl, h, hp, hauto, rfl⟩
  | succ k ih =>
    obtain ⟨m, hm, hat, hmp, hmauto, hmerr⟩ := ih (Nat.le_of_succ_le hk)
    have hf := chunk_frame m
    have hstep : step m = .next (chunk m) := by
      rw [step_of_no_pending hmp, engineTurn_of_enabled hmauto (hat.running hk)]
    exact ⟨chunk m, runSteps_succ hm hstep, hat.next hk, hf.pending.trans hmp, hf.auto.trans hmauto, hf.err.trans hmerr⟩

/-- Settles O56: each step is a chunk, and in `DONE` the engine has no step. -/
theorem autoDerivationCompletesByItself : Obligations.AutoDerivationCompletesByItself := by
  intro s hinv hp hauto hrun hblk hiter
  obtain ⟨t, ht, hat, htp, _, hterr⟩ := runSteps_auto (atChunk_zero hinv hrun hblk hiter) hp hauto le_rfl
  have hfin := hat.finished
  have hnot : t.engine.phase ≠ .running := fun heq => nomatch hfin.done.symm.trans heq
  exact ⟨t, ht, hfin.done, by rw [step_of_no_pending htp, engineTurn_of_disabled (.inr hnot)], hterr, hfin.key⟩

/-! ### Any interleaving -/

theorem exec_pending {i : Instr} {s t : State} (he : exec i s = .next t) : t.pending = s.pending := by
  cases i with
  | init => rcases execInit_cases he with ⟨_, rfl⟩ | ⟨_, _, rfl⟩ | ⟨_, _, _, rfl⟩ | ⟨_, _, _, rfl⟩ <;> rfl
  | start => rcases execStart_cases he with ⟨_, rfl⟩ | ⟨_, rfl⟩ <;> rfl
  | step =>
    rcases execStep_cases he with ⟨_, rfl⟩ | ⟨_, rfl⟩
    · exact (chunk_frame s).pending
    · rfl
  | abort => rcases execAbort_cases he with ⟨_, rfl⟩ | ⟨_, rfl⟩ <;> rfl
  | pack => rcases execPack_cases he with ⟨_, rfl⟩ | ⟨_, rfl⟩ <;> rfl
  | unpack => rcases execUnpack_cases he with ⟨_, rfl⟩ | ⟨_, rfl⟩ <;> rfl

theorem engineTurn_pending (s : State) : (engineTurn s).pending = s.pending := by
  rcases engineTurn_cases s with ⟨_, heq⟩ | heq <;> rw [heq]
  exact (chunk_frame s).pending

/-- No turn adds or removes turns still to come (R70). -/
theorem takeTurn_pending {turn : Turn} {s t : State} (ht : takeTurn turn s = .next t) : t.pending = s.pending := by
  rcases takeTurn_cases ht with ⟨r, rfl⟩ | ⟨r, v, _, _, rfl⟩ | ⟨space, a, b, _, rfl⟩ | ⟨a, w, _, rfl⟩ | ⟨_, rfl⟩ |
    ⟨_, rfl⟩ | ⟨w, _, rfl⟩ | ⟨w, i, _, _, hexec⟩
  · rfl
  · exact (writeReg_frame s r v).pending
  · exact (hostWriteByte_frame s space a b).pending
  · exact (hostWriteCw_frame s a w).pending
  · exact engineTurn_pending s
  · rfl
  · rfl
  · exact exec_pending hexec

/-- A step uses up the turn at the head. -/
theorem step_pending {s t : State} (h : step s = .next t) : t.pending = s.pending.tail := by
  rcases step_cases h with ⟨hp, rfl⟩ | ⟨turn, rest, hp, ht⟩
  · rw [engineTurn_pending, hp, List.tail_nil]
  · rw [takeTurn_pending ht, hp, List.tail_cons]

/-- The turns that leave the construction alone (R36, R260). -/
def keepsConstruction (turn : Turn) : Prop := turn ≠ .reset ∧ turn ≠ .wr 0 (encode .init)

/-- A run without reset and `INIT` keeps the invariant, the parameters and the construction. -/
theorem runSteps_keepsConstruction {n : Nat} {s t : State} (h : Inv s) (hrun : runSteps n s = .next t)
    (hturns : ∀ turn ∈ s.pending.take n, keepsConstruction turn) :
    Inv t ∧ t.params = s.params ∧ SameConstruction t.engine s.engine := by
  induction n generalizing s with
  | zero => cases hrun; exact ⟨h, rfl, .refl _⟩
  | succ n ih =>
    rw [runSteps] at hrun
    cases hs : step s with
    | fault r => exact nomatch r
    | refused r => rw [hs] at hrun; exact nomatch hrun
    | next m =>
      rw [hs] at hrun
      have hhead {turn : Turn} (heq : s.pending.head? = some turn) : keepsConstruction turn := by
        obtain ⟨rest, hp⟩ := List.head?_eq_some_iff.mp heq
        exact hturns turn (by rw [hp, List.take_succ_cons]; exact List.mem_cons_self)
      have htail : m.pending.take n = (s.pending.take (n + 1)).tail := by
        rw [step_pending hs, List.tail_take_eq_take_tail, Nat.add_sub_cancel]
      have hrest : ∀ turn ∈ m.pending.take n, keepsConstruction turn := fun turn hmem =>
        hturns turn (List.mem_of_mem_tail (htail ▸ hmem))
      obtain ⟨hinv, hparams, hcons⟩ := ih (everyStepKeepsTheInvariant s m h hs) hrun hrest
      have hcons' := step_sameConstruction hs (fun heq => (hhead heq).1 rfl) fun heq => (hhead heq).2 rfl
      exact ⟨hinv, hparams.trans (step_params hs), hcons.trans hcons'⟩

/-- Settles O55: the construction is kept throughout, and in `DONE` the invariant fixes `RESULT` by the construction. -/
theorem interleavingDoesNotAffectTheKey : Obligations.InterleavingDoesNotAffectTheKey := by
  intro s t n h hrun hturns hdone
  obtain ⟨hinv, hparams, hcons⟩ := runSteps_keepsConstruction h hrun hturns
  exact ⟨by rw [hinv.resultLen_of_done hdone, hcons.dkLen], hinv.key_of_sameConstruction hdone hparams hcons⟩

end Sys2Proof.Machine

/-! The key of a construction under `IDX_MASK = 0xFF` is PBKDF2-HMAC-SHA1 on bytes (43_engine_run.md R197). -/

namespace Sys2Proof.Machine

open Sys2Proof

/-! ### Digests on bytes -/

theorem wordBytes_xor (x y : Word) : wordBytes (x ^^^ y) = xorBytes (wordBytes x) (wordBytes y) := by
  simp only [wordBytes, BitVec.extractLsb'_xor]
  rfl

theorem digestBytes_xor (a b : Digest) : digestBytes (a.xor b) = xorBytes (digestBytes a) (digestBytes b) := by
  simp only [digestBytes, Digest.xor, Digest.words, List.flatMap_cons, List.flatMap_nil, wordBytes_xor]
  rfl

theorem Digest.zero_xor (d : Digest) : Digest.zero.xor d = d := by
  simp [Digest.xor, Digest.zero]

/-- R197, R133: the hex of the blocks is the hex of their bytes. -/
theorem blocksHex_eq_bytesHex (mask : IdxMask) (e : Engine) (n : Nat) : blocksHex mask e n =
    bytesHex ((List.range n).flatMap fun k => digestBytes (tRef mask e (BitVec.ofNat 32 (k + 1)) e.c.toNat)) := by
  rw [blocksHex, bytesHex, List.flatMap_assoc]
  exact List.flatMap_congr fun k _ => bhex_eq_bytesHex _

/-! ### The reference computation of a construction, on bytes -/

/-- R139, first form: the PRF of the salt and the block index. -/
theorem digestBytes_firstU (s : State) (i : Word) : digestBytes (firstU .full (constructEngine s) i) =
    hmacBytes (passwordOperand s) (saltOperand s ++ wordBytes i) := by
  rw [← hmacIsRfc2104OnBytes, ← idx4_full, List.length_append, length_idx4]
  rfl

/-- R139, other form: the PRF of the digest before. -/
theorem digestBytes_nextU (s : State) (u : Digest) : digestBytes (nextU (constructEngine s) u) =
    hmacBytes (passwordOperand s) (digestBytes u) := by
  rw [← hmacIsRfc2104OnBytes, bpack8_digestBytes, length_digestBytes]
  rfl

theorem digestBytes_uRef (s : State) (i j : Nat) :
    digestBytes (uRef .full (constructEngine s) (BitVec.ofNat 32 i) j) =
      pbkdf2U (passwordOperand s) (saltOperand s) i j := by
  induction j with
  | zero => exact digestBytes_firstU s _
  | succ j ih => rw [uRef, digestBytes_nextU, ih, pbkdf2U]

theorem digestBytes_tRef (s : State) (i j : Nat) :
    digestBytes (tRef .full (constructEngine s) (BitVec.ofNat 32 i) (j + 1)) =
      pbkdf2F (passwordOperand s) (saltOperand s) i j := by
  induction j with
  | zero => rw [tRef, tRef, Digest.zero_xor, digestBytes_uRef, pbkdf2F]
  | succ j ih => rw [tRef, digestBytes_xor, ih, digestBytes_uRef, pbkdf2F]

/-- R197: the truncated hex of the reference blocks is the hex of PBKDF2. -/
theorem take_blocksHex_eq_pbkdf2 {s : State} (hc : Constructed s.params (constructEngine s)) :
    (blocksHex .full (constructEngine s) (constructEngine s).blocks.toNat).take (2 * s.inputs.dkLen.toNat) =
      bytesHex (pbkdf2 (passwordOperand s) (saltOperand s) s.inputs.iterCount.toNat s.inputs.dkLen.toNat) := by
  have hiter : (constructEngine s).c.toNat = s.inputs.iterCount.toNat - 1 + 1 := (Nat.sub_add_cancel hc.cPos).symm
  rw [blocksHex_eq_bytesHex, take_bytesHex, pbkdf2, hc.blocksEq, hiter]
  simp only [digestBytes_tRef]
  rfl

/-- Settles O53: `INIT` is accepted, the derivation runs to its end, and the key of the construction is PBKDF2's. -/
theorem derivedKeyIsPbkdf2 : Obligations.DerivedKeyIsPbkdf2 := by
  intro s hinv hrun hmask hiter hdk hpwFits hsaltFits hdkFits
  have hpar := not_initParamBad hiter hdk
  have hfit : initLengthsFit s = true := (initLengthsFit_iff s).mpr ⟨hpwFits, hsaltFits, hdkFits⟩
  have hok : outcomeCode .init s = .ok := by rw [outcomeCode_init, if_neg hrun, if_neg hpar, if_pos hfit]
  have hinit := exec_init_of_ok hok
  have hc := constructEngine_constructed (Bool.eq_false_iff.mpr hpar) hfit
  have hcount : divUp s.inputs.dkLen.toNat 20 * divUp s.inputs.iterCount.toNat s.params.ipc =
      chunkCount (initialized s).params (initialized s).engine :=
    congrArg (· * divUp s.inputs.iterCount.toNat s.params.ipc) hc.blocksEq.symm
  obtain ⟨t, ht, hfin⟩ := runCommands_start_finished (s := initialized s) (exec_inv hinv hinit) rfl
  have hcons : SameConstruction t.engine (constructEngine s) := { hfin.construction with }
  refine ⟨t, ?_, hfin.done, by rw [hfin.inv.resultLen_of_done hfin.done, hcons.dkLen]; rfl, ?_⟩
  · rw [runCommands_cons hinit, hcount, ht]
  · rw [hfin.inv.key_of_sameConstruction hfin.done (p := s.params) hfin.params hcons]
    exact hmask ▸ take_blocksHex_eq_pbkdf2 hc

end Sys2Proof.Machine

/-! What one `STEP` moves and what it leaves, the fractions it reports, the bounds of the counters, and `DONE`
(43_engine_run.md R186 to R191, R194, R195, R199). -/

namespace Sys2Proof.Machine

open Sys2Proof

/-! ### Where a chunk leaves the engine -/

theorem keepChars_chunkProgress (s : State) : keepChars (chunkProgress s).engine = keepChars s.engine := by
  rw [keepChars, isLastBlock_chunkProgress, (chunkProgress_same s).dkLen, (chunkProgress_same s).blocks, keepChars]

theorem keepChars_of_inner {e : Engine} (hinner : isLastBlock e = false) : keepChars e = 40 :=
  if_neg (ne_true_of_eq_false hinner)

theorem keepChars_of_last {e : Engine} (hlast : isLastBlock e = true) :
    keepChars e = 2 * e.dkLen.toNat - 40 * (e.blocks.toNat - 1) := if_pos hlast

/-- R189: a block that is not the last keeps all its characters. -/
theorem take_keepChars_of_inner {e : Engine} (hinner : isLastBlock e = false) (d : Digest) :
    (bhex d.words).take (keepChars e) = bhex d.words := by
  rw [keepChars_of_inner hinner]
  exact List.take_of_length_le (length_bhex d.words).le

/-- R188: `RESULT` after the chunk that completes a block. -/
theorem completeBlock_chunkProgress_result {s : State} (h : InBlock s.params s.engine)
    (hlt : s.engine.iter.toNat < s.engine.c.toNat)
    (hend : s.engine.iter.toNat + chunkSize s = s.engine.c.toNat) :
    (completeBlock (chunkProgress s).engine).result = s.engine.result.storeSeq s.engine.resultLen
      ((bhex (tRef s.params.idxMask s.engine s.engine.blk s.engine.c.toNat).words).take (keepChars s.engine)) := by
  have hsame := chunkProgress_same s
  rw [completeBlock, chunkProgress_t h hlt, hend, keepChars_chunkProgress, hsame.result, hsame.resultLen]

theorem completeBlock_chunkProgress_resultLen (s : State) :
    (completeBlock (chunkProgress s).engine).resultLen = s.engine.resultLen + keepChars s.engine := by
  rw [completeBlock, keepChars_chunkProgress, (chunkProgress_same s).resultLen]

/-- R186, R190: in the chunk that completes the last block the engine finishes. -/
theorem chunk_done_of_last_end {s : State} (hlt : s.engine.iter.toNat < s.engine.c.toNat)
    (hend : s.engine.iter.toNat + chunkSize s = s.engine.c.toNat) (hlast : isLastBlock s.engine = true) :
    (chunk s).engine.phase = .done := by
  rw [chunk_of_last_end hlt hend hlast]
  rfl

/-- R187, R190: the events of the chunk that ends the derivation. -/
theorem chunk_events_of_last_end {s : State} (h : Inv s) (hrun : s.engine.phase = .running)
    (hend : s.engine.iter.toNat + chunkSize s = s.engine.c.toNat) (hlast : isLastBlock s.engine = true) :
    (chunk s).events = s.events ++ [.progress s.engine.blk s.engine.c,
      .done ((blocksHex s.params.idxMask s.engine s.engine.blocks.toNat).take (2 * s.engine.dkLen.toNat))
        (chunk s).engine.elapsed] := by
  have hlt := (h.inBlock hrun).2
  have hchunk := chunk_of_last_end hlt hend hlast
  have hkey := (chunk_inv h hrun).key_of_sameConstruction (chunk_done_of_last_end hlt hend hlast)
    (chunk_frame s).params (chunk_sameConstruction s)
  have hprogress := chunkProgress_events hlt
  rw [hend, ← word_eq_ofNat_of_toNat rfl] at hprogress
  rw [← hkey, hchunk, finishDerivation_events]
  change (chunkProgress s).events ++ _ = _
  rw [hprogress, List.append_assoc]
  rfl

/-- Settles O17: the three ends of a chunk, with the counters, `T` and `U` its iterations leave. -/
theorem stepMovesTheSequencingState : Obligations.StepMovesTheSequencingState := by
  intro s hinv hrun e n
  obtain ⟨hin, hlt⟩ := hinv.inBlock hrun
  have hsame := chunkProgress_same s
  have hu := chunkProgress_u hin hinv.ipcPos hlt
  have hprogress := chunkProgress_events hlt
  refine ⟨chunkSize_pos hinv.ipcPos hlt, accept (chunk s), exec_step_of_running hrun, fun hinside => ?_,
    fun hend hblk => ?_, fun hend hblk => ?_⟩
  · rw [chunk_of_inside hlt hinside]
    exact ⟨hsame.phase.trans hrun, hsame.blk, chunkProgress_iter hlt, chunkProgress_t hin hlt, hu, hsame.resultLen,
      hsame.result, hsame.elapsed, rfl, rfl, hprogress⟩
  · have hinner : isLastBlock e = false := Bool.eq_false_iff.mpr (mt (isLastBlock_iff e).mp hblk)
    have hresult := completeBlock_chunkProgress_result hin hlt hend
    have hlen := completeBlock_chunkProgress_resultLen s
    rw [take_keepChars_of_inner hinner] at hresult
    rw [keepChars_of_inner hinner] at hlen
    change s.engine.iter.toNat + chunkSize s = s.engine.c.toNat at hend
    rw [hend] at hu hprogress
    rw [← word_eq_ofNat_of_toNat rfl] at hprogress
    rw [chunk_of_inner_end hlt hend hinner]
    exact ⟨hsame.phase.trans hrun, congrArg (· + 1) hsame.blk, rfl, rfl, hu, hlen, hresult, hsame.elapsed, rfl, rfl,
      hprogress⟩
  · have hlast : isLastBlock e = true := (isLastBlock_iff e).mpr hblk
    have hresult := completeBlock_chunkProgress_result hin hlt hend
    have hlen := completeBlock_chunkProgress_resultLen s
    have hevents := chunk_events_of_last_end hinv hrun hend hlast
    rw [keepChars_of_last hlast] at hresult
    rw [hin.resultLen_add_keepChars_last hlast] at hlen
    change s.engine.iter.toNat + chunkSize s = s.engine.c.toNat at hend
    rw [hend] at hu
    rw [chunk_of_last_end hlt hend hlast] at hevents ⊢
    exact ⟨rfl, congrArg (· + 1) (hsame.blk.trans hblk), rfl, rfl, hu, hlen, hresult,
      congrArg (nowValue s - ·) hsame.t0, rfl, BitVec.or_assoc _ _ _, hevents⟩

/-! ### What a chunk leaves -/

/-- `t` is `s` but for the fields a chunk may write (R186). -/
theorem ChunkFrame.eq {s t : State} (h : ChunkFrame s t) : t = { s with
    ctrl := { s.ctrl with irqStatus := t.ctrl.irqStatus },
    engine := { s.engine with
      u := t.engine.u, t := t.engine.t, iter := t.engine.iter, blk := t.engine.blk,
      result := t.engine.result, resultLen := t.engine.resultLen,
      elapsed := t.engine.elapsed, phase := t.engine.phase },
    events := t.events, nowDraws := t.nowDraws } := by
  dsimp only
  rw [← h.params, ← h.inputs, ← h.codec, ← h.replies, ← h.pending, ← h.env, ← h.resets, ← h.auto, ← h.err,
    ← h.irqEnable, ← h.c, ← h.dkLen, ← h.blocks, ← h.t0, ← h.ipad, ← h.opad, ← h.saltL]

/-- R186, R188: a chunk leaves `RESULT` or appends a block's characters to it. -/
theorem chunk_result (s : State) :
    ((chunk s).engine.result = s.engine.result ∧ (chunk s).engine.resultLen = s.engine.resultLen) ∨
    ∃ vs : List Byte, (chunk s).engine.result = s.engine.result.storeSeq s.engine.resultLen vs ∧
      s.engine.resultLen + vs.length ≤ (chunk s).engine.resultLen := by
  have hsame := chunkProgress_same s
  rcases chunk_cases s with ⟨_, hchunk⟩ | ⟨_, hchunk⟩ <;> rw [hchunk]
  · exact .inl ⟨hsame.result, hsame.resultLen⟩
  · have hengine : (chunkCompletion (chunkProgress s)).engine.result = (completeBlock (chunkProgress s).engine).result ∧
        (chunkCompletion (chunkProgress s)).engine.resultLen = (completeBlock (chunkProgress s).engine).resultLen := by
      rcases chunkCompletion_cases (chunkProgress s) with ⟨_, h⟩ | ⟨_, h⟩ <;> rw [h] <;> exact ⟨rfl, rfl⟩
    refine .inr ⟨(bhex (chunkProgress s).engine.t.words).take (keepChars s.engine), ?_, ?_⟩
    · rw [hengine.1, completeBlock, keepChars_chunkProgress, hsame.result, hsame.resultLen]
    · rw [hengine.2, completeBlock_chunkProgress_resultLen]
      exact Nat.add_le_add_left (List.length_take_le _ _) _

/-- R188, R268: outside the characters a chunk appends, `RESULT` is as before. -/
theorem chunk_result_lookup {s : State} (hm : s.engine.result.wf) :
    s.engine.resultLen ≤ (chunk s).engine.resultLen ∧
    ∀ a, ¬ (s.engine.resultLen ≤ a ∧ a < (chunk s).engine.resultLen) →
      (chunk s).engine.result.lookup a = s.engine.result.lookup a := by
  rcases chunk_result s with ⟨hresult, hlen⟩ | ⟨vs, hresult, hlen⟩
  · exact ⟨hlen.ge, fun a _ => by rw [hresult]⟩
  · refine ⟨by omega, fun a ha => ?_⟩
    rw [hresult, lookup_storeSeq _ _ _ _ hm, if_neg (by omega)]

/-- A chunk writes no byte space but `RESULT`. -/
theorem chunk_byteMem (s : State) {space : ByteSpace} (h : space ≠ .result) :
    byteMem (chunk s) space = byteMem s space := by
  have hf := chunk_frame s
  cases space with
  | pw => exact congrArg Inputs.pw hf.inputs
  | salt => exact congrArg Inputs.salt hf.inputs
  | result => exact absurd rfl h
  | cb => exact congrArg Codec.cb hf.codec

/-- Settles O18: the frame of the chunk, and what its one write to a buffer leaves of `RESULT`. -/
theorem chunkFrame : Obligations.ChunkFrame := by
  intro s hrun hm
  have hf := chunk_frame s
  obtain ⟨hle, hlookup⟩ := chunk_result_lookup hm.1
  refine ⟨accept (chunk s), exec_step_of_running hrun, ?_, hle, fun a ha => ?_,
    fun space a hne => readByte_congr (chunk_byteMem s hne) hf.env hf.resets a,
    readCw_congr (congrArg Codec.cw hf.codec) hf.env hf.resets⟩
  · exact congrArg accept hf.eq
  · have hlook : (byteMem (accept (chunk s)) .result).lookup a = (byteMem s .result).lookup a := hlookup a ha
    rw [readByte, readByte, hlook, accept_env, accept_resets, hf.env, hf.resets]

/-! ### The bounds of the counters -/

theorem Constructed.blocks_le {p : Params} {e : Engine} (h : Constructed p e) : e.blocks.toNat ≤ 214748365 := by
  have := e.dkLen.isLt
  rw [h.blocksEq, divUp_le_iff (by omega)]
  omega

theorem phaseInv_unconf {p : Params} {e : Engine} (h : phaseInv p e) (hunconf : e.phase = .unconf) :
    e.blocks = 0 ∧ e.blk = 0 ∧ e.iter = 0 ∧ e.resultLen = 0 ∧ e.elapsed = 0 ∧ e.c = 0 ∧ e.dkLen = 0 ∧ e.saltL = [] := by
  rwa [phaseInv, hunconf] at h

/-- The bounds of R195 and R30 that hold in every phase. -/
structure CounterBounds (p : Params) (e : Engine) : Prop where
  iter : e.iter.toNat ≤ e.c.toNat
  blk : e.blk.toNat ≤ e.blocks.toNat + 1
  blocks : e.blocks.toNat ≤ 214748365
  resultLen : e.resultLen ≤ 2 * e.dkLen.toNat
  dkFits : fits p.dkMax e.dkLen.toNat = true

theorem Inv.counterBounds {s : State} (h : Inv s) : CounterBounds s.params s.engine := by
  cases hphase : s.engine.phase with
  | unconf =>
    obtain ⟨hblocks, hblk, hiter, hlen, _, hc, hdk, _⟩ := phaseInv_unconf h.phase hphase
    refine ⟨by rw [hiter, hc], by rw [hblk, hblocks]; decide, by rw [hblocks]; decide, by rw [hlen]; omega, ?_⟩
    rw [hdk]
    cases s.params.dkMax with
    | none => rfl
    | some m => exact decide_eq_true (Nat.zero_le m)
  | idle =>
    obtain ⟨hcons, hblk, hiter, _, hlen, _⟩ := h.idle hphase
    refine ⟨by rw [hiter]; exact Nat.zero_le _, ?_, hcons.blocks_le, by omega, hcons.dkFits⟩
    rw [hblk]
    exact Nat.le_add_left 1 _
  | running =>
    obtain ⟨hin, _⟩ := h.inBlock hphase
    have hlen := hin.resultLen_add_keepChars_le
    exact ⟨hin.iterLe, Nat.le_succ_of_le hin.blkLe, hin.constructed.blocks_le, by omega, hin.constructed.dkFits⟩
  | done =>
    obtain ⟨hcons, hblk, hiter, _, hlen, _⟩ := h.done hphase
    exact ⟨by rw [hiter]; exact Nat.zero_le _, hblk.le, hcons.blocks_le, hlen.le, hcons.dkFits⟩

/-- Settles O22: the bounds of every phase; a register shows a number below `2^32` in full. -/
theorem countersStayInRange : Obligations.CountersStayInRange := by
  intro s hinv
  have hb := hinv.counterBounds
  have hdk := s.engine.dkLen.isLt
  refine ⟨hb.iter, hb.blk, Nat.succ_le_succ hb.blocks, hb.resultLen, by omega, fun m hm hmax => ?_⟩
  have hfits : s.engine.dkLen.toNat ≤ m := by simpa [hm, fits] using hb.dkFits
  have hlen := hb.resultLen
  exact (BitVec.toNat_ofNat _ _).trans (Nat.mod_eq_of_lt (by omega))

/-! ### The fraction of a `Progress` -/

/-- The iterations a derivation has run when `BLK` is `blk` and `ITER` is `n` (R187). -/
def iterationsDone (e : Engine) (blk : Word) (n : Nat) : Nat := (blk.toNat - 1) * e.c.toNat + n

theorem progressFraction_eq (e : Engine) (blk iter : Word) : progressFraction e blk iter =
    (iterationsDone e blk iter.toNat : Rat) / ((e.blocks.toNat * e.c.toNat : Nat) : Rat) := rfl

theorem progressFraction_congr {e e' : Engine} (h : SameConstruction e e') (blk iter : Word) :
    progressFraction e blk iter = progressFraction e' blk iter := by
  rw [progressFraction, h.c, h.blocks, progressFraction]

/-- The iterations up to the end of a block are those before the next one. -/
theorem InBlock.iterationsDone_next {p : Params} {e : Engine} (h : InBlock p e) :
    iterationsDone e (e.blk + 1) 0 = iterationsDone e e.blk e.c.toNat := by
  rw [iterationsDone, iterationsDone, h.toNat_blk_succ, ← Nat.succ_mul, Nat.succ_eq_add_one,
    Nat.sub_add_cancel h.blkPos]
  rfl

/-- No count passes that of the whole derivation, and only the last of the last block reaches it. -/
theorem InBlock.iterationsDone_le {p : Params} {e : Engine} (h : InBlock p e) {n : Nat} (hpos : 1 ≤ n)
    (hn : n ≤ e.c.toNat) : iterationsDone e e.blk n ≤ e.blocks.toNat * e.c.toNat ∧
      (iterationsDone e e.blk n = e.blocks.toNat * e.c.toNat ↔ e.blk.toNat = e.blocks.toNat ∧ n = e.c.toNat) := by
  obtain ⟨b, hb⟩ : ∃ b, e.blk.toNat = b + 1 := ⟨e.blk.toNat - 1, (Nat.sub_add_cancel h.blkPos).symm⟩
  have hle := h.blkLe
  rw [iterationsDone, hb, Nat.add_sub_cancel]
  rw [hb] at hle
  rcases hle.eq_or_lt with heq | hlt
  · rw [← heq, Nat.succ_mul]
    omega
  · have hmul := Nat.mul_le_mul_right e.c.toNat hlt
    rw [Nat.succ_mul, Nat.succ_mul] at hmul
    omega

/-- What a chunk that counts to `n` reports, and when it is the last one (R187, R194). -/
structure ProgressReport (s : State) (n : Nat) (t : State) : Prop where
  events : ∃ more, t.events = s.events ++ .progress s.engine.blk (BitVec.ofNat 32 n) :: more
  counted : iterationsDone s.engine t.engine.blk t.engine.iter.toNat = iterationsDone s.engine s.engine.blk n
  done : t.engine.phase = .done ↔ s.engine.blk.toNat = s.engine.blocks.toNat ∧ n = s.engine.c.toNat

theorem chunk_progressReport {s : State} (h : Inv s) (hrun : s.engine.phase = .running) :
    ProgressReport s (s.engine.iter.toNat + chunkSize s) (chunk s) := by
  obtain ⟨hin, hlt⟩ := h.inBlock hrun
  have hsame := chunkProgress_same s
  have hevents := chunkProgress_events hlt
  have hphase : (chunkProgress s).engine.phase ≠ .done := fun hdone => nomatch hdone.symm.trans (hsame.phase.trans hrun)
  have hnext : iterationsDone s.engine ((chunkProgress s).engine.blk + 1) 0 =
      iterationsDone s.engine s.engine.blk s.engine.c.toNat := by rw [hsame.blk, hin.iterationsDone_next]
  rcases chunk_end_cases hlt with hinside | ⟨hend, hinner⟩ | ⟨hend, hlast⟩
  · rw [chunk_of_inside hlt hinside]
    exact ⟨⟨[], hevents⟩, by rw [hsame.blk, chunkProgress_iter hlt], iff_of_false hphase fun ⟨_, hc⟩ => hinside.ne hc⟩
  · rw [chunk_of_inner_end hlt hend hinner]
    exact ⟨⟨[], hevents⟩, hend ▸ hnext, iff_of_false hphase fun ⟨hblk, _⟩ => (hin.blk_lt_blocks hinner).ne hblk⟩
  · have hdone := chunk_done_of_last_end hlt hend hlast
    have hevents := chunk_events_of_last_end h hrun hend hlast
    rw [word_eq_ofNat_of_toNat hend.symm] at hevents
    refine ⟨⟨_, hevents⟩, ?_, iff_of_true hdone ⟨?_, hend⟩⟩
    · rw [chunk_of_last_end hlt hend hlast]
      exact hend ▸ hnext
    · rw [(isLastBlock_iff _).mp hlast]

/-- Settles O21: fractions of one whole compare as the iterations counted do, and a chunk counts at least one more. -/
theorem progressIsStrictlyIncreasing : Obligations.ProgressIsStrictlyIncreasing := by
  intro s hinv hrun
  obtain ⟨hin, hlt⟩ := hinv.inBlock hrun
  obtain ⟨⟨more, hevents⟩, hcounted, hdone⟩ := chunk_progressReport hinv hrun
  have hpos := chunkSize_pos hinv.ipcPos hlt
  have hn := iter_add_chunkSize_le hlt
  have hword : (BitVec.ofNat 32 (s.engine.iter.toNat + chunkSize s)).toNat = s.engine.iter.toNat + chunkSize s := by
    rw [← word_eq_ofNat_of_toNat (chunkProgress_iter hlt), chunkProgress_iter hlt]
  obtain ⟨hle, hwhole⟩ := hin.iterationsDone_le (Nat.le_add_left_of_le hpos) hn
  have htotal : 0 < ((s.engine.blocks.toNat * s.engine.c.toNat : Nat) : Rat) :=
    Nat.cast_pos.mpr (Nat.mul_pos hin.constructed.blocksPos hin.constructed.cPos)
  refine ⟨accept (chunk s), s.engine.blk, BitVec.ofNat 32 (s.engine.iter.toNat + chunkSize s), more,
    exec_step_of_running hrun, hevents, ?_, ?_, ?_, ?_, ?_⟩
  · rw [progressFraction_eq, progressFraction_eq, hword, div_lt_div_iff_of_pos_right htotal, Nat.cast_lt]
    exact Nat.add_lt_add_left (Nat.lt_add_of_pos_right hpos) _
  · rw [progressFraction_eq, hword]
    exact div_pos (Nat.cast_pos.mpr (Nat.add_pos_right _ (Nat.add_pos_right _ hpos))) htotal
  · rw [progressFraction_eq, hword, div_le_one htotal, Nat.cast_le]
    exact hle
  · rw [progressFraction_eq, hword, div_eq_one_iff_eq htotal.ne', Nat.cast_inj, hwhole]
    exact hdone.symm
  · rw [accept_engine, progressFraction_congr (chunk_sameConstruction s), progressFraction_eq, progressFraction_eq,
      hword, hcounted]

/-! ### `DONE` -/

/-- Settles O23: the invariant fixes the engine in `DONE`, and every command of the run asks for another phase. -/
theorem doneIsTerminal : Obligations.DoneIsTerminal := by
  intro s hinv hdone
  obtain ⟨hcons, hblk, hiter, ht, hlen, hu⟩ := hinv.done hdone
  have hsucc : (s.engine.blocks + 1).toNat = s.engine.blocks.toNat + 1 := by
    have := hcons.blocks_le
    exact (BitVec.toNat_add _ _).trans (Nat.mod_eq_of_lt (by change _ + 1 < _; omega))
  have hidle : s.engine.phase ≠ .idle := fun h => nomatch hdone.symm.trans h
  have hrun : s.engine.phase ≠ .running := fun h => nomatch hdone.symm.trans h
  exact ⟨BitVec.eq_of_toNat_eq (hblk.trans hsucc.symm), hiter, ht, hlen, hlen ▸ hinv.readBytes_of_done hdone, hu,
    exec_start_of_not_idle hidle, exec_step_of_not_running hrun, exec_abort_of_not_running hrun,
    engineTurn_of_disabled (.inr hrun)⟩

end Sys2Proof.Machine

/-! Every step answers; what a rejection shows and leaves, what plain host accesses leave, and products of machines
(60_exceptions.md R220 to R224, R236, R238, R241). -/

namespace Sys2Proof.Machine

open Sys2Proof

/-! ### The code a command leaves -/

/-- Settles O9: `ERR` after a command is its outcome code, and a word that does not decode is rejected before any. -/
theorem rejectionPriority : Obligations.RejectionPriority := by
  refine ⟨fun i s => ?_, fun s w rest e hp hd => ⟨_, step_of_decode_error hp hd, rfl⟩⟩
  obtain ⟨t, he⟩ := exec_answers i s
  exact ⟨t, he, exec_err he⟩

theorem exec_err_mem {i : Instr} {s : State} {codes : List ErrCode} (h : outcomeCode i s ∈ codes) :
    ∃ t, exec i s = .next t ∧ t.ctrl.err ∈ codes := by
  obtain ⟨t, he⟩ := exec_answers i s
  exact ⟨t, he, exec_err he ▸ h⟩

/-- Settles O10: the checks each command has, read off its outcome code. -/
theorem rejectionCodesOfEachCommand : Obligations.RejectionCodesOfEachCommand := by
  refine fun s => ⟨exec_err_mem ?_, exec_err_mem ?_, exec_err_mem ?_, exec_err_mem ?_, exec_err_mem ?_, exec_err_mem ?_⟩
  · rw [outcomeCode_init]; split_ifs <;> decide
  · rw [outcomeCode_start]; split_ifs <;> decide
  · rw [outcomeCode_step]; split_ifs <;> decide
  · rw [outcomeCode_abort]; split_ifs <;> decide
  · rw [outcomeCode_pack]; split_ifs <;> decide
  · rw [outcomeCode_unpack]; split_ifs <;> decide

/-! ### What the host sees of a rejection -/

/-- R25, R221: every code but `OK` is non-zero. -/
theorem errCode_ne_zero {code : ErrCode} (h : code ≠ .ok) : errCode code ≠ 0 := by
  cases code with
  | ok => exact absurd rfl h
  | illegalCmd | badPhase | badParam | badLength => decide

/-- R222: after a rejection the host reads a non-zero `ERR`. -/
theorem readReg_err_reject {code : ErrCode} (h : code ≠ .ok) (s : State) : readReg (reject code s) 3 ≠ 0 :=
  errCode_ne_zero h

/-- R51, R222: a rejection raises `irq` if `IRQ_ENABLE.ERR = 1`, as it leaves `IRQ_STATUS.ERR` set. -/
theorem irqLine_reject (code : ErrCode) {s : State} (hen : s.ctrl.irqEnable.getLsbD 2 = true) :
    irqLine (reject code s) = true := by
  rw [irqLine, bne_iff_ne, and_ne_zero_iff_exists_bit]
  exact ⟨2, by omega, by simp [irqErr], hen⟩

/-! ### An accepted command leaves `IRQ_STATUS.ERR` -/

theorem raiseIrq_irqStatus_getLsbD {bits : BitVec 3} {k : Nat} (h : bits.getLsbD k = false) (s : State) :
    (raiseIrq bits s).ctrl.irqStatus.getLsbD k = s.ctrl.irqStatus.getLsbD k := by
  rw [raiseIrq_ctrl, BitVec.getLsbD_or, h, Bool.or_false]

theorem chunkCompletion_irqErr (s : State) :
    (chunkCompletion s).ctrl.irqStatus.getLsbD 2 = s.ctrl.irqStatus.getLsbD 2 := by
  rcases chunkCompletion_cases s with ⟨_, h⟩ | ⟨_, h⟩ <;> rw [h]
  exact raiseIrq_irqStatus_getLsbD (bits := irqDone) rfl _

/-- R187, R190: a chunk raises `PROG` and `DONE` alone. -/
theorem chunk_irqErr (s : State) : (chunk s).ctrl.irqStatus.getLsbD 2 = s.ctrl.irqStatus.getLsbD 2 := by
  have hprogress : (chunkProgress s).ctrl.irqStatus.getLsbD 2 = s.ctrl.irqStatus.getLsbD 2 :=
    raiseIrq_irqStatus_getLsbD (bits := irqProg) rfl _
  rcases chunk_cases s with ⟨_, h⟩ | ⟨_, h⟩ <;> rw [h]
  · exact hprogress
  · exact (chunkCompletion_irqErr _).trans hprogress

/-- R222: a command that leaves `ERR = OK` does not touch `IRQ_STATUS.ERR`; its rejecting arms leave another code. -/
theorem exec_irqErr_of_ok {i : Instr} {s t : State} (he : exec i s = .next t) (hok : t.ctrl.err = .ok) :
    t.ctrl.irqStatus.getLsbD 2 = s.ctrl.irqStatus.getLsbD 2 := by
  cases i with
  | init =>
    rcases execInit_cases he with ⟨_, rfl⟩ | ⟨_, _, rfl⟩ | ⟨_, _, _, rfl⟩ | ⟨_, _, _, rfl⟩
    · exact nomatch hok
    · exact nomatch hok
    · exact nomatch hok
    · rfl
  | start =>
    rcases execStart_cases he with ⟨_, rfl⟩ | ⟨_, rfl⟩
    · rfl
    · exact nomatch hok
  | step =>
    rcases execStep_cases he with ⟨_, rfl⟩ | ⟨_, rfl⟩
    · exact chunk_irqErr s
    · exact nomatch hok
  | abort =>
    rcases execAbort_cases he with ⟨_, rfl⟩ | ⟨_, rfl⟩
    · rfl
    · exact nomatch hok
  | pack =>
    rcases execPack_cases he with ⟨_, rfl⟩ | ⟨_, rfl⟩
    · rfl
    · exact nomatch hok
  | unpack =>
    rcases execUnpack_cases he with ⟨_, rfl⟩ | ⟨_, rfl⟩
    · rfl
    · exact nomatch hok

/-- Settles O11: every rejection is `reject`, whose one code and one bit the host sees; an accepted command raises no bit
but a chunk's own. -/
theorem rejectionChangesNothingElse : Obligations.RejectionChangesNothingElse := by
  refine ⟨fun i s => ?_, fun s w rest e hp hd => ?_⟩
  · obtain ⟨t, he⟩ := exec_answers i s
    refine ⟨fun hcode => ⟨t, he, ?_⟩, fun hok => ⟨t, he, ?_⟩⟩
    · rcases exec_rejected_or_accepted he with ⟨_, rfl⟩ | ⟨hok, _⟩
      · exact ⟨rfl, readReg_err_reject hcode s, irqLine_reject _⟩
      · exact absurd hok hcode
    · have herr := (exec_err he).trans hok
      exact ⟨herr, exec_irqErr_of_ok he herr⟩
  · exact ⟨_, step_of_decode_error hp hd, rfl, readReg_err_reject (code := .illegalCmd) nofun _, irqLine_reject _⟩

/-! ### Plain host accesses -/

/-- What every host access but a write to `CMD` keeps (R238, R267). -/
structure PlainAccessFrame (s t : State) : Prop where
  engine : t.engine = s.engine
  events : t.events = s.events
  err : t.ctrl.err = s.ctrl.err
  params : t.params = s.params
  pending : t.pending = s.pending
  nowDraws : t.nowDraws = s.nowDraws

theorem reply_plain (r : Reply) (s : State) : PlainAccessFrame s (reply r s) := ⟨rfl, rfl, rfl, rfl, rfl, rfl⟩

theorem WriteRegFrame.plain {s t : State} (h : WriteRegFrame s t) : PlainAccessFrame s t :=
  ⟨h.engine, h.events, h.err, h.params, h.pending, h.nowDraws⟩

theorem BufferWriteFrame.plain {s t : State} (h : BufferWriteFrame s t) : PlainAccessFrame s t :=
  ⟨h.engine, h.events, congrArg Control.err h.ctrl, h.params, h.pending, h.nowDraws⟩

theorem takeTurn_plain {turn : Turn} (h : isPlainAccess turn = true) (s : State) :
    ∃ t, takeTurn turn s = .next t ∧ PlainAccessFrame s t := by
  cases turn with
  | rd r => exact ⟨_, rfl, reply_plain _ s⟩
  | wr r v => exact ⟨_, if_neg (bne_iff_ne.mp h), (writeReg_frame s r v).plain⟩
  | rdb space a => exact ⟨_, rfl, reply_plain _ s⟩
  | wrb space a b => exact ⟨_, rfl, (hostWriteByte_frame s space a b).plain⟩
  | rdw a => exact ⟨_, rfl, reply_plain _ s⟩
  | wrw a w => exact ⟨_, rfl, (hostWriteCw_frame s a w).plain⟩
  | engine => exact nomatch h
  | reset => exact nomatch h

/-- Settles O44: the frame of each plain turn, taken with the turns after it still to come. -/
theorem plainAccessesNeverTouchTheEngine : Obligations.PlainAccessesNeverTouchTheEngine := by
  intro s turn rest hp hplain
  obtain ⟨t, ht, hf⟩ := takeTurn_plain hplain { s with pending := rest }
  exact ⟨t, (step_of_pending hp).trans ht, hf.engine, hf.events, hf.err, hf.params, hf.pending, hf.nowDraws⟩

/-! ### Every step answers, and products (R236) -/

theorem issueCommand_answers (w : Word) (s : State) : ∃ t, issueCommand w s = .next t := by
  cases hd : decode w with
  | ok i => exact issueCommand_of_decode hd s ▸ exec_answers i s
  | error e => exact ⟨_, issueCommand_of_decode_error hd s⟩

theorem takeTurn_answers (turn : Turn) (s : State) : ∃ t, takeTurn turn s = .next t := by
  cases turn with
  | wr r v =>
    rcases eq_or_ne r 0 with rfl | hr
    · exact issueCommand_answers v s
    · exact ⟨_, if_neg hr⟩
  | rd | rdb | wrb | rdw | wrw | engine | reset => exact ⟨_, rfl⟩

/-- Settles O6: the engine's turn answers, and so does every turn the host may have pending. -/
theorem everyStepAnswers : Obligations.EveryStepAnswers := by
  intro s
  cases hp : s.pending with
  | nil => exact ⟨_, step_of_no_pending hp⟩
  | cons turn rest => exact step_of_pending hp ▸ takeTurn_answers turn _

/-- Settles O50: the step of a state of the product always answers, and its new state is put in its own place alone. -/
theorem instancesAreIndependent : Obligations.InstancesAreIndependent := by
  refine ⟨fun ss k hk => ?_, fun ss ss' k s t hs hstep hinst => ?_⟩
  · obtain ⟨t, hstep⟩ := everyStepAnswers ss[k]
    exact ⟨_, stepInstance_of_next (List.getElem?_eq_getElem hk) hstep, List.length_set,
      fun j hj => List.getElem?_set_ne hj.symm⟩
  · obtain ⟨hk, _⟩ := List.getElem?_eq_some_iff.mp hs
    obtain rfl : ss.set k t = ss' := Option.some.inj ((stepInstance_of_next hs hstep).symm.trans hinst)
    exact List.getElem?_set_self hk

end Sys2Proof.Machine

/-! The written part of `RESULT` (10_state.md R43, 70_reset_and_hazards.md R268): no step but reset changes it. -/

namespace Sys2Proof.Machine

open Sys2Proof

/-- Every character of `RESULT` below `s`'s `RESULT_LEN` reads in `t` as in `s`. -/
def KeepsWrittenResult (s t : State) : Prop :=
  ∀ a, a < s.engine.resultLen → readByte t .result a = readByte s .result a

theorem keepsWrittenResult_of_result_eq {s t : State} (hresult : t.engine.result = s.engine.result)
    (henv : t.env = s.env) (hresets : t.resets = s.resets) : KeepsWrittenResult s t :=
  fun a _ => readByte_congr (space := .result) hresult henv hresets a

theorem BufferWriteFrame.keepsWrittenResult {s t : State} (h : BufferWriteFrame s t) : KeepsWrittenResult s t :=
  keepsWrittenResult_of_result_eq (congrArg Engine.result h.engine) h.env h.resets

theorem WriteRegFrame.keepsWrittenResult {s t : State} (h : WriteRegFrame s t) : KeepsWrittenResult s t :=
  keepsWrittenResult_of_result_eq (congrArg Engine.result h.engine) h.env h.resets

/-- R188: a chunk writes `RESULT` from `RESULT_LEN` on. -/
theorem chunk_keepsWrittenResult {s : State} (hwf : s.engine.result.wf) : KeepsWrittenResult s (chunk s) := by
  intro a ha
  have hf := chunk_frame s
  have hlookup : (byteMem (chunk s) .result).lookup a = (byteMem s .result).lookup a :=
    (chunk_result_lookup hwf).2 a fun hin => hin.1.not_gt ha
  rw [readByte, readByte, hlookup, hf.env, hf.resets]

theorem engineTurn_keepsWrittenResult {s : State} (hwf : s.engine.result.wf) : KeepsWrittenResult s (engineTurn s) := by
  rcases engineTurn_cases s with ⟨_, heq⟩ | heq <;> rw [heq]
  · exact chunk_keepsWrittenResult hwf
  · exact fun _ _ => rfl

/-- Of the commands `STEP` alone writes `RESULT`, by its chunk; `INIT` and `ABORT` move `RESULT_LEN` and leave the
characters. -/
theorem exec_keepsWrittenResult {i : Instr} {s t : State} (hwf : s.engine.result.wf) (he : exec i s = .next t) :
    KeepsWrittenResult s t := by
  cases i with
  | init =>
    rcases execInit_cases he with ⟨_, rfl⟩ | ⟨_, _, rfl⟩ | ⟨_, _, _, rfl⟩ | ⟨_, _, _, rfl⟩ <;>
      exact keepsWrittenResult_of_result_eq rfl rfl rfl
  | start => rcases execStart_cases he with ⟨_, rfl⟩ | ⟨_, rfl⟩ <;> exact keepsWrittenResult_of_result_eq rfl rfl rfl
  | step =>
    rcases execStep_cases he with ⟨_, rfl⟩ | ⟨_, rfl⟩
    · exact chunk_keepsWrittenResult hwf
    · exact keepsWrittenResult_of_result_eq rfl rfl rfl
  | abort => rcases execAbort_cases he with ⟨_, rfl⟩ | ⟨_, rfl⟩ <;> exact keepsWrittenResult_of_result_eq rfl rfl rfl
  | pack => rcases execPack_cases he with ⟨_, rfl⟩ | ⟨_, rfl⟩ <;> exact keepsWrittenResult_of_result_eq rfl rfl rfl
  | unpack => rcases execUnpack_cases he with ⟨_, rfl⟩ | ⟨_, rfl⟩ <;> exact keepsWrittenResult_of_result_eq rfl rfl rfl

theorem takeTurn_keepsWrittenResult {turn : Turn} {s t : State} (hwf : s.engine.result.wf)
    (ht : takeTurn turn s = .next t) (hturn : turn ≠ .reset) : KeepsWrittenResult s t := by
  rcases takeTurn_cases ht with ⟨r, rfl⟩ | ⟨r, v, _, _, rfl⟩ | ⟨space, a, b, _, rfl⟩ | ⟨a, w, _, rfl⟩ | ⟨_, rfl⟩ |
    ⟨hreset, _⟩ | ⟨w, _, rfl⟩ | ⟨w, i, _, _, hexec⟩
  · exact keepsWrittenResult_of_result_eq rfl rfl rfl
  · exact (writeReg_frame s r v).keepsWrittenResult
  · exact (hostWriteByte_frame s space a b).keepsWrittenResult
  · exact (hostWriteCw_frame s a w).keepsWrittenResult
  · exact engineTurn_keepsWrittenResult hwf
  · exact absurd hreset hturn
  · exact keepsWrittenResult_of_result_eq rfl rfl rfl
  · exact exec_keepsWrittenResult hwf hexec

/-- Settles O20: the step is the engine's own or the turn at the head, and each of them but reset keeps the written part. -/
theorem writtenResultNeverChanges : Obligations.WrittenResultNeverChanges := by
  intro s t h hstep hhead
  rcases step_cases hstep with ⟨_, rfl⟩ | ⟨turn, rest, hp, ht⟩
  · exact engineTurn_keepsWrittenResult h.result.1
  · have hturn : turn ≠ .reset := fun heq => hhead (by rw [hp, heq, List.head?_cons])
    exact takeTurn_keepsWrittenResult (s := { s with pending := rest }) h.result.1 ht hturn

end Sys2Proof.Machine
